-- ==== Sys2Proof/Word.lean ====
section
/-! DEFINITION. The word, the register index and the 16-bit immediate: the values the spec treats as bits. -/

namespace Sys2Proof

/-- A 32-bit pattern: a register value or an instruction word (R8 XLEN and ILEN, R9, R10).
Bit 0 is the least significant bit (R9, D12). -/
abbrev Word := BitVec 32

/-- A 5-bit register index as a field of an instruction word holds it (R71, R81); it names one of the 32
general registers (R20). -/
abbrev Reg := BitVec 5

/-- The 16-bit immediate field, raw (R71); each instruction says how it is widened (R80). -/
abbrev Imm := BitVec 16

end Sys2Proof
end

