-- ==== Sys2Proof/Config.lean ====
section
/-! DEFINITION. The parameters of the block that the spec leaves to the implementation or the host (R8). -/

namespace Sys2Proof

/-- The parameter rows of R8. "A model takes each `parameter` row as an argument": every definition that
depends on one takes a `Config`, and a claim holds for every `Config`. None of them reaches a step: "no value
is left open inside a step" (R109). Log entries 9, 10 and 11. -/
structure Config where
  /-- `CAPACITY`, the maximum program length in words (R54); its default is 1000. -/
  capacity : Nat := 1000
  /-- `PRELOAD_VALIDATE` (R234, D8), which the source does not settle. -/
  preloadValidate : Bool
  /-- `CHAR_RENDER` (R144, D6): the text of a printed character whose value lies outside 0 to 127. -/
  charRender : Word → String
  /-- What the host writes for `UnknownSyscall(v)`: its text, channel and number format are the host's
  (R145, D7). -/
  diagnostic : Word → String

end Sys2Proof
end

