-- ==== Sys2Proof/Syntax.lean ====
section
/-! DEFINITION. The instructions: one constructor for each row of spec/opcode_table.json. -/

namespace Sys2Proof

/-- The fourteen operations of R2, R75, in the fifteen rows of the opcode table; `syscall` has two rows, the
word that dispatches (R140) and the aliases (R141), log entry 12. Operands stand in the order of R75:
destination first, then the sources. -/
inductive Instr where
  /-- `add $d, $s, $t` (R120). -/
  | add (d s t : Reg)
  /-- `sub $d, $s, $t` (R121). -/
  | sub (d s t : Reg)
  /-- `and $d, $s, $t` (R122). -/
  | and (d s t : Reg)
  /-- `or $d, $s, $t` (R123). -/
  | or (d s t : Reg)
  /-- `slt $d, $s, $t` (R124). -/
  | slt (d s t : Reg)
  /-- `syscall`, the word 0x0000000C (R140). -/
  | syscall
  /-- A syscall alias: any other word of the syscall class, which R75 keeps whole as `Syscall(w)` (R141). -/
  | syscallAlias (w : Word)
  /-- `beq $s, $t, imm` (R160). -/
  | beq (s t : Reg) (imm : Imm)
  /-- `bne $s, $t, imm` (R161). -/
  | bne (s t : Reg) (imm : Imm)
  /-- `addi $t, $s, imm` (R170). -/
  | addi (t s : Reg) (imm : Imm)
  /-- `slti $t, $s, imm` (R171). -/
  | slti (t s : Reg) (imm : Imm)
  /-- `andi $t, $s, imm` (R172). -/
  | andi (t s : Reg) (imm : Imm)
  /-- `ori $t, $s, imm` (R173). -/
  | ori (t s : Reg) (imm : Imm)
  /-- `lui $t, imm` (R174); field `s` is ignored (R79). -/
  | lui (t : Reg) (imm : Imm)
  /-- `mul $d, $s, $t` (R190); bits 10 to 0 are ignored (R79). -/
  | mul (d s t : Reg)
  deriving DecidableEq, Repr

end Sys2Proof
end

