-- ==== Sys2Proof/WellFormed.lean ====
section
/-! DEFINITION. When a term of Instr stands for an instruction of the block. -/

namespace Sys2Proof

/-- R77: opcode field zero, and bits 3 and 2 both 1. The five base keys of R76 never pass this test (R75). -/
def isSyscallClass (w : Word) : Bool :=
  w &&& 0xFC000000#32 == 0#32 && w &&& 0x0000000C#32 == 0x0000000C#32

/-- Register indices and immediates are in range by their types ("any index 0 to 31 is legal in any field",
R81). An alias must be a word of the syscall class other than 0x0000000C (R141). -/
def Instr.wellFormed : Instr → Bool
  | .add _ _ _ => true
  | .sub _ _ _ => true
  | .and _ _ _ => true
  | .or _ _ _ => true
  | .slt _ _ _ => true
  | .syscall => true
  | .syscallAlias w => isSyscallClass w && w != 0x0000000C#32
  | .beq _ _ _ => true
  | .bne _ _ _ => true
  | .addi _ _ _ => true
  | .slti _ _ _ => true
  | .andi _ _ _ => true
  | .ori _ _ _ => true
  | .lui _ _ => true
  | .mul _ _ _ => true

end Sys2Proof
end

