-- ==== Sys2Proof/Decode.lean ====
section
/-! DEFINITION. Fields, the decoder and the encoder (30_encoding.md). -/

namespace Sys2Proof

/-! ## Fields (R71 to R73) -/

/-- `s = w[25:21]` (R71). -/
def sField (w : Word) : Reg := w.extractLsb' 21 5
/-- `t = w[20:16]` (R71). -/
def tField (w : Word) : Reg := w.extractLsb' 16 5
/-- `d = w[15:11]` (R71). -/
def dField (w : Word) : Reg := w.extractLsb' 11 5
/-- `imm = w[15:0]` (R71). -/
def immField (w : Word) : Imm := w.extractLsb' 0 16
/-- `opcodeField = word & 0xFC000000`, kept in place (R72). -/
def opcodeField (w : Word) : Word := w &&& 0xFC000000#32
/-- `op6 = w[31:26]` (R72). -/
def op6 (w : Word) : BitVec 6 := w.extractLsb' 26 6
/-- `key = word & 0x7FF`, bits 10 to 0 (R73). -/
def baseKey (w : Word) : Word := w &&& 0x7FF#32

/-! ## The decoder (R75) -/

/-- Why a word is illegal: the two diagnostics of R82. -/
inductive Illegal where
  /-- R82 (a): "any other key → fatal decode error (unrecognized base instruction)". -/
  | unrecognizedBase
  /-- R82 (b): "any other key → fatal decode error (unrecognized extended instruction)". -/
  | unrecognizedExtended
  deriving DecidableEq, Repr

/-- What the decoder answers for a word: one operation with its fields, or `Invalid` (R75, R85). -/
inductive Decoded where
  | op (i : Instr)
  | invalid (why : Illegal)
  deriving DecidableEq, Repr

/-- The syscall class split into its two rows: the word that dispatches (R140) and the aliases (R141). -/
def decodeSyscallClass (w : Word) : Instr :=
  if w = 0x0000000C#32 then .syscall else .syscallAlias w

/-- The base group: dispatch on the key, then the syscall bit test `(w & 0xC) == 0xC` (R75, R76, R77; C5). -/
def decodeBase (w : Word) : Decoded :=
  if baseKey w = 0x020#32 then .op (.add (dField w) (sField w) (tField w))
  else if baseKey w = 0x022#32 then .op (.sub (dField w) (sField w) (tField w))
  else if baseKey w = 0x024#32 then .op (.and (dField w) (sField w) (tField w))
  else if baseKey w = 0x025#32 then .op (.or (dField w) (sField w) (tField w))
  else if baseKey w = 0x02A#32 then .op (.slt (dField w) (sField w) (tField w))
  else if w &&& 0x0000000C#32 = 0x0000000C#32 then .op (decodeSyscallClass w)
  else .invalid .unrecognizedBase

/-- The extended group: dispatch on the whole opcode field (R75, R78). -/
def decodeExtended (w : Word) : Decoded :=
  if opcodeField w = 0x10000000#32 then .op (.beq (sField w) (tField w) (immField w))
  else if opcodeField w = 0x14000000#32 then .op (.bne (sField w) (tField w) (immField w))
  else if opcodeField w = 0x20000000#32 then .op (.addi (tField w) (sField w) (immField w))
  else if opcodeField w = 0x28000000#32 then .op (.slti (tField w) (sField w) (immField w))
  else if opcodeField w = 0x30000000#32 then .op (.andi (tField w) (sField w) (immField w))
  else if opcodeField w = 0x34000000#32 then .op (.ori (tField w) (sField w) (immField w))
  else if opcodeField w = 0x3C000000#32 then .op (.lui (tField w) (immField w))
  else if opcodeField w = 0x70000000#32 then .op (.mul (dField w) (sField w) (tField w))
  else .invalid .unrecognizedExtended

/-- R75: total, and a function of the word alone. -/
def decode (w : Word) : Decoded :=
  if opcodeField w = 0#32 then decodeBase w else decodeExtended w

/-- Whether `decode` recognises the word (R82, used by R234). -/
def decodes (w : Word) : Bool :=
  match decode w with
  | .op _ => true
  | .invalid _ => false

/-- The decoder on a row of the opcode table: an instruction has exactly 32 bits (R70), so the number is the
word, cut to the bits given. -/
def decodeTableWord (nbits w : Nat) : Option Instr :=
  match decode (BitVec.ofNat 32 (w % 2 ^ nbits)) with
  | .op i => some i
  | .invalid _ => none

/-! ## The encoder (R74, R91) -/

/-- Format BASE: opcode field zero, `s`, `t`, `d`, `key` (R74). -/
def wordBase (s t d : Reg) (key : BitVec 11) : Word := (0#6 ++ s ++ t ++ d ++ key : BitVec 32)
/-- Format EXT-I: `op6`, `s`, `t`, `imm` (R74). -/
def wordExtI (op : BitVec 6) (s t : Reg) (imm : Imm) : Word := (op ++ s ++ t ++ imm : BitVec 32)
/-- Format EXT-R: `op6`, `s`, `t`, `d`, and bits 10 to 0, which the encoder writes 0 (R74, R91). -/
def wordExtR (op : BitVec 6) (s t d : Reg) : Word := (op ++ s ++ t ++ d ++ 0#11 : BitVec 32)

/-- The word of an instruction, by the keys and opcodes of R76 and R78 and the formulas of R91. The ignored
field `s` of `lui` is written 0, as R91 writes the ignored bits of `mul` (log entry 13). -/
def encode : Instr → Word
  | .add d s t => wordBase s t d 0x020#11
  | .sub d s t => wordBase s t d 0x022#11
  | .and d s t => wordBase s t d 0x024#11
  | .or d s t => wordBase s t d 0x025#11
  | .slt d s t => wordBase s t d 0x02A#11
  | .syscall => 0x0000000C#32
  | .syscallAlias w => w
  | .beq s t imm => wordExtI 0x04#6 s t imm
  | .bne s t imm => wordExtI 0x05#6 s t imm
  | .addi t s imm => wordExtI 0x08#6 s t imm
  | .slti t s imm => wordExtI 0x0A#6 s t imm
  | .andi t s imm => wordExtI 0x0C#6 s t imm
  | .ori t s imm => wordExtI 0x0D#6 s t imm
  | .lui t imm => wordExtI 0x0F#6 0#5 t imm
  | .mul d s t => wordExtR 0x1C#6 s t d

/-! ## The mnemonic output (R86) -/

/-- The mnemonic of an operation; an alias shows as `syscall` (R77, R141). -/
def Instr.mnemonic : Instr → String
  | .add _ _ _ => "add"
  | .sub _ _ _ => "sub"
  | .and _ _ _ => "and"
  | .or _ _ _ => "or"
  | .slt _ _ _ => "slt"
  | .syscall => "syscall"
  | .syscallAlias _ => "syscall"
  | .beq _ _ _ => "beq"
  | .bne _ _ _ => "bne"
  | .addi _ _ _ => "addi"
  | .slti _ _ _ => "slti"
  | .andi _ _ _ => "andi"
  | .ori _ _ _ => "ori"
  | .lui _ _ => "lui"
  | .mul _ _ _ => "mul"

/-- The combinational output `mnemonic(w)` of R39 and R86: the mnemonic, or an invalid indication. -/
def mnemonicOf (w : Word) : Option String :=
  match decode w with
  | .op i => some i.mnemonic
  | .invalid _ => none

end Sys2Proof
end

