-- ==== Sys2Proof/Machine/Operands.lean ====
section
/-! DEFINITION. How values and immediates are read, widened and combined (R10 to R12, R80). -/

namespace Sys2Proof.Machine

/-- `signed(v)`, in [-2^31, 2^31 - 1] (R10). -/
def signed (v : Word) : Int := v.toInt

/-- `unsigned(v)`, in [0, 2^32 - 1] (R10). -/
def unsigned (v : Word) : Nat := v.toNat

/-- `bits32(n)`: the pattern of the integer `n` modulo 2^32 (R10). -/
def bits32 (n : Int) : Word := BitVec.ofInt 32 n

/-- `sext_16(v)`: high 16 bits all equal to bit 15 (R11). -/
def sext16 (v : Imm) : Word := v.signExtend 32

/-- `zext_16(v)`: high 16 bits 0 (R11). -/
def zext16 (v : Imm) : Word := v.setWidth 32

/-- `a + b` of R12: exact on the signed values, then modulo 2^32 (D2, log entry 5). -/
def addWord (a b : Word) : Word := bits32 (signed a + signed b)

/-- `a - b` of R12 (D2, log entry 5). -/
def subWord (a b : Word) : Word := bits32 (signed a - signed b)

/-- `a * b` of R12: the low 32 bits of the exact product (R190, D3, log entry 6). -/
def mulWord (a b : Word) : Word := bits32 (signed a * signed b)

/-- `a & b` of R12. -/
def andWord (a b : Word) : Word := a &&& b

/-- `a | b` of R12. -/
def orWord (a b : Word) : Word := a ||| b

/-- `a << k` of R12: zeros come in, bits beyond bit 31 are dropped. -/
def shlWord (a : Word) (k : Nat) : Word := a <<< k

/-- The branch offset: "`signed(sext_16(imm))`, a line delta, not scaled" (R80, R162). -/
def lineDelta (imm : Imm) : Int := signed (sext16 imm)

end Sys2Proof.Machine
end

