-- ==== Sys2Proof/Machine/Flags.lean ====
section
/-! DEFINITION. Conditions. The block has no flags: "comparisons write 0 or 1 into a general register, and
branches compare two registers directly; nothing else holds a condition" (R34). -/

namespace Sys2Proof.Machine

/-- `a <s b`: `signed(a) < signed(b)` (R12). -/
def lessSigned (a b : Word) : Bool := decide (signed a < signed b)

/-- `cond ? 1 : 0` (R12). -/
def boolWord (c : Bool) : Word := if c then 0x00000001#32 else 0x00000000#32

/-- The result of `slt` and `slti` (R124, R171). -/
def setLess (a b : Word) : Word := boolWord (lessSigned a b)

/-- The condition of `beq`: equality of the 32-bit patterns (R160). -/
def condEqual (a b : Word) : Bool := a == b

/-- The condition of `bne` (R161). -/
def condNotEqual (a b : Word) : Bool := a != b

end Sys2Proof.Machine
end

