-- ==== Sys2Proof/Machine/State.lean ====
section
/-! DEFINITION. The state of the block (10_state.md), the reasons a step or a load stops, and reset. -/

namespace Sys2Proof.Machine

/-- Why a run was halted (R31, R200). -/
inductive HaltReason where
  /-- `End`: the line cursor was outside [0, N) at the start of a step (R101). -/
  | endOfProgram
  /-- `Exit`: syscall 10 (R142). -/
  | exit
  /-- `UnknownSyscall(v)`: a selector other than 1, 10 and 11 (R145). -/
  | unknownSyscall (v : Word)
  deriving DecidableEq, Repr

/-- The run status (R31). Every value but `running` is terminal (R32). -/
inductive Status where
  | running
  | halted (reason : HaltReason)
  /-- `Faulted(w)`: the decode fault, which records the whole word (R201). -/
  | faulted (w : Word)
  deriving DecidableEq, Repr

/-- A console event (R33). -/
inductive Event where
  | printInt (v : Word)
  | printChar (v : Word)
  | unknownSyscall (v : Word)
  deriving DecidableEq, Repr

/-- The program store, the only address space (R50): the word of line `k` is the list's element `k`, and N is its
length. A program has exactly one such list, so equal programs are equal data (log entry 1). -/
abbrev Memory := List Word

/-- The whole state of the block, and the program it runs. -/
structure State where
  /-- `R[0]` to `R[31]` (R20); read and written only through the ports of Ops.lean (R22, R23). -/
  regs : Vector Word 32
  /-- The line cursor, an unbounded integer (R27, R28, D4). -/
  pc : Int
  /-- The run status (R31). -/
  status : Status
  /-- The output log, oldest event first (R33). -/
  out : List Event
  /-- The loaded program, the inputs `prog` and `N` of R39; no step writes it (R53). -/
  prog : Memory
  deriving DecidableEq, Repr

/-- Why a step stops. A decode fault is none of these: the spec gives it an effect, the terminal status
`Faulted(w)` (R201), so it is a next state (log entry 4). -/
inductive Fault where
  /-- Raised by `step` alone, in a terminal status: "`step` is not enabled in them and no state changes
  afterwards" (R107). Safe: nothing the hardware does is left out (log entry 3). -/
  | notRunning
  deriving DecidableEq, Repr

/-- Why an instruction has no meaning, or why a program is not loaded. -/
inductive Refusal where
  /-- Raised by `exec` for an instruction not modelled yet; no arm of this model raises it. Safe. -/
  | notModelled (mnemonic : String)
  /-- Raised by `boot`: a listing of more than CAPACITY words "does not start a run" (R54, D9). Safe. -/
  | overCapacity (words : Nat)
  /-- Raised by `boot` under PRELOAD_VALIDATE: a program holding an illegal word "is refused before reset and no
  run starts" (R234). Safe: both settings of the parameter are covered. -/
  | undecodableWord (w : Word)
  deriving DecidableEq, Repr

/-- The machine right after reset (R40, R230), with nothing loaded (log entry 2). -/
def State.reset : State where
  regs := Vector.replicate 32 0#32
  pc := 0
  status := .running
  out := []
  prog := []

end Sys2Proof.Machine
end

