-- ==== Sys2Proof/Machine/Ops.lean ====
section
/-! DEFINITION. The named operations over the program store, the register file, the cursor, the status and the
output log; every meaning is written over them. -/

namespace Sys2Proof.Machine

/-! ## The program store -/

/-- The well-formedness of a program store: its length N is at most CAPACITY (R54). The list form itself is
canonical: one list for each program. -/
def Memory.wf (cfg : Config) (m : Memory) : Bool := decide (m.length ≤ cfg.capacity)

/-- The range check of R101: `i` lies in [0, N). -/
def Memory.inRange (m : Memory) (i : Int) : Bool := decide (0 ≤ i) && decide (i < m.length)

/-- `Fetch(i)`, performed only after the range check (R52); `none` outside [0, N). -/
def Memory.fetch (m : Memory) (i : Int) : Option Word :=
  if m.inRange i then m[i.toNat]? else none

/-- The store with the word `w` at line `n`, everything else kept; a gap before line `n` is filled with the
illegal word 0x00000000. A loader's operation, not an instruction's (R53, log entry 15). -/
def Memory.place : Memory → Nat → Word → Memory
  | [], 0, w => [w]
  | [], n + 1, w => 0#32 :: Memory.place [] n w
  | _ :: m, 0, w => w :: m
  | x :: m, n + 1, w => x :: Memory.place m n w

/-! ## The register file -/

/-- The read port: "index 0 always yields 0" (R22). -/
def State.read (s : State) (r : Reg) : Word :=
  if r = 0#5 then 0#32 else s.regs[r.toNat]

/-- The write port: "no-op when index is 0" (R23). -/
def State.write (s : State) (r : Reg) (v : Word) : State :=
  if r = 0#5 then s else { s with regs := s.regs.set r.toNat v }

/-! ## The cursor, the output log, the status -/

/-- `pc <- i + 1` (R105 case 3). -/
def State.advance (s : State) : State := { s with pc := s.pc + 1 }

/-- `pc <- i + signed(sext_16(imm))`, from the branch's own index (R105 case 1, R162). -/
def State.branchBy (s : State) (imm : Imm) : State := { s with pc := s.pc + lineDelta imm }

/-- `emit(e)`: append to the output log (R13, R33). -/
def State.emit (s : State) (e : Event) : State := { s with out := s.out ++ [e] }

/-- The one way a run ends: the status becomes terminal, and nothing else changes; no program counter, cause or
mode is saved and control goes to no handler (R200, R206). There is no return from it (R207). -/
def State.terminate (s : State) (t : Status) : State := { s with status := t }

/-- `halt(reason)` (R13, R200): the cursor stays at `i` (R105 case 2). -/
def State.halt (s : State) (r : HaltReason) : State := s.terminate (.halted r)

/-- `raise DecodeFault(w)`: `status <- Faulted(w)`; "no register write, no output event, no cursor change"
(R102, R201). -/
def State.raiseDecodeFault (s : State) (w : Word) : State := s.terminate (.faulted w)

/-- The reset event on a machine with a program loaded (R230): every piece of state takes its reset value and the
program, an input, stays. -/
def State.resetEvent (s : State) : State := { State.reset with prog := s.prog }

/-! ## The shapes of a meaning (R106) -/

/-- What every meaning and every step answers. -/
abbrev Result := Host.Outcome State Fault Refusal

/-- `wr = Some(d, v); taken = false; sys = false`: the write goes through the write port, then `pc <- i + 1`
(R104, R105 case 3). -/
def writeNext (d : Reg) (v : Word) (s : State) : Result := .next (s.write d v).advance

/-- `wr = None; taken = c; sys = false` (R105 cases 1 and 3). -/
def branchNext (c : Bool) (imm : Imm) (s : State) : Result :=
  if c then .next (s.branchBy imm) else .next s.advance

/-- What the syscall dispatcher answers (R140). -/
inductive Dispatched where
  | continue (s : State)
  | halt (s : State) (reason : HaltReason)
  deriving DecidableEq, Repr

/-- `taken = false; sys = true`: `Continue` makes the engine set `pc <- i + 1`, `Halt(reason)` makes it set the
status and leaves `pc` at `i` (R105 case 2, R140). -/
def syscallNext : Dispatched → Result
  | .continue s => .next s.advance
  | .halt s r => .next (s.halt r)

end Sys2Proof.Machine
end

