-- ==== Sys2Proof/Machine/BaseAlu.lean ====
section
/-! DEFINITION. The base-group ALU instructions (41_base_alu.md). -/

namespace Sys2Proof.Machine

/-- `add`: `x[d] <- x[s] + x[t]` (R120). -/
def execAdd (d rs rt : Reg) (s : State) : Result := writeNext d (addWord (s.read rs) (s.read rt)) s

/-- `sub`: `x[d] <- x[s] - x[t]` (R121). -/
def execSub (d rs rt : Reg) (s : State) : Result := writeNext d (subWord (s.read rs) (s.read rt)) s

/-- `and`: `x[d] <- x[s] & x[t]` (R122). -/
def execAnd (d rs rt : Reg) (s : State) : Result := writeNext d (andWord (s.read rs) (s.read rt)) s

/-- `or`: `x[d] <- x[s] | x[t]` (R123). -/
def execOr (d rs rt : Reg) (s : State) : Result := writeNext d (orWord (s.read rs) (s.read rt)) s

/-- `slt`: `x[d] <- (x[s] <s x[t]) ? 1 : 0` (R124). -/
def execSlt (d rs rt : Reg) (s : State) : Result := writeNext d (setLess (s.read rs) (s.read rt)) s

end Sys2Proof.Machine
end

