-- ==== Sys2Proof/Machine/Branch.lean ====
section
/-! DEFINITION. The branch instructions (43_branch.md). -/

namespace Sys2Proof.Machine

/-- `beq`: taken when `x[s] == x[t]` (R160), to `i + signed(sext_16(imm))` (R162). -/
def execBeq (rs rt : Reg) (imm : Imm) (s : State) : Result :=
  branchNext (condEqual (s.read rs) (s.read rt)) imm s

/-- `bne`: taken when `x[s] != x[t]` (R161), to `i + signed(sext_16(imm))` (R162). -/
def execBne (rs rt : Reg) (imm : Imm) (s : State) : Result :=
  branchNext (condNotEqual (s.read rs) (s.read rt)) imm s

end Sys2Proof.Machine
end

