-- ==== Sys2Proof/Machine/Immediate.lean ====
section
/-! DEFINITION. The immediate instructions (44_immediate.md); the widening of each immediate is R80. -/

namespace Sys2Proof.Machine

/-- `addi`: `x[t] <- x[s] + sext_16(imm)` (R170). -/
def execAddi (rt rs : Reg) (imm : Imm) (s : State) : Result :=
  writeNext rt (addWord (s.read rs) (sext16 imm)) s

/-- `slti`: `x[t] <- (x[s] <s sext_16(imm)) ? 1 : 0` (R171; C1, log entry 7). -/
def execSlti (rt rs : Reg) (imm : Imm) (s : State) : Result :=
  writeNext rt (setLess (s.read rs) (sext16 imm)) s

/-- `andi`: `x[t] <- x[s] & zext_16(imm)` (R172). -/
def execAndi (rt rs : Reg) (imm : Imm) (s : State) : Result :=
  writeNext rt (andWord (s.read rs) (zext16 imm)) s

/-- `ori`: `x[t] <- x[s] | zext_16(imm)` (R173). -/
def execOri (rt rs : Reg) (imm : Imm) (s : State) : Result :=
  writeNext rt (orWord (s.read rs) (zext16 imm)) s

/-- `lui`: `x[t] <- sext_16(imm) << 16` (R174). -/
def execLui (rt : Reg) (imm : Imm) (s : State) : Result :=
  writeNext rt (shlWord (sext16 imm) 16) s

end Sys2Proof.Machine
end

