-- ==== Sys2Proof/Machine/Multiply.lean ====
section
/-! DEFINITION. The multiply instruction (45_multiply.md). -/

namespace Sys2Proof.Machine

/-- `mul`: the zero-guard is on the index `t`, "not `d` (reproduce exactly)"; when it passes, `x[d] <- x[s] * x[t]`
goes through the write port, which discards a write to index 0 (R190; C4, U2, log entry 8). -/
def execMul (d rs rt : Reg) (s : State) : Result :=
  if rt ≠ 0#5 then writeNext d (mulWord (s.read rs) (s.read rt)) s else .next s.advance

end Sys2Proof.Machine
end

