-- ==== Sys2Proof/Machine/Syscall.lean ====
section
/-! DEFINITION. The syscall instruction, its aliases and the dispatcher (42_syscall.md). -/

namespace Sys2Proof.Machine

/-- `SYSCALL_WORD` (R8), the only word that dispatches (R140). -/
def syscallWord : Word := 0x0000000C#32
/-- `V0`, the selector register (R8, R24). -/
def v0 : Reg := 2#5
/-- `A0`, the argument register (R8, R24). -/
def a0 : Reg := 4#5
/-- `SYS_PRINT_INT` (R8, R143). -/
def sysPrintInt : Word := 0x00000001#32
/-- `SYS_EXIT` (R8, R142). -/
def sysExit : Word := 0x0000000A#32
/-- `SYS_PRINT_CHAR` (R8, R144). -/
def sysPrintChar : Word := 0x0000000B#32

/-- `dispatch(w)` of R140: an alias continues (R141); else the selector `x[2]`, compared as a whole word, chooses
exit (R142), print integer (R143), print character (R144) or the unknown-syscall halt (R145). -/
def dispatch (w : Word) (s : State) : Dispatched :=
  if w ≠ syscallWord then .continue s
  else if s.read v0 = sysExit then .halt s .exit
  else if s.read v0 = sysPrintInt then .continue (s.emit (.printInt (s.read a0)))
  else if s.read v0 = sysPrintChar then .continue (s.emit (.printChar (s.read a0)))
  else .halt (s.emit (.unknownSyscall (s.read v0))) (.unknownSyscall (s.read v0))

/-- `syscall`, the word 0x0000000C: the dispatch (R140). -/
def execSyscall (s : State) : Result := syscallNext (dispatch syscallWord s)

/-- A syscall alias: `dispatch(w) = Continue` (R141, D5, log entry 14). -/
def execSyscallAlias (w : Word) (s : State) : Result := syscallNext (dispatch w s)

end Sys2Proof.Machine
end

