-- ==== Sys2Proof/Machine/Dispatch.lean ====
section
/-! DEFINITION. One arm for each instruction: `exec` of R106, with the register write and the next cursor. -/

namespace Sys2Proof.Machine

def exec (i : Instr) (s : State) : Host.Outcome State Fault Refusal :=
  match i with
  | .add d rs rt => Sys2Proof.Machine.execAdd d rs rt s
  | .sub d rs rt => Sys2Proof.Machine.execSub d rs rt s
  | .and d rs rt => Sys2Proof.Machine.execAnd d rs rt s
  | .or d rs rt => Sys2Proof.Machine.execOr d rs rt s
  | .slt d rs rt => Sys2Proof.Machine.execSlt d rs rt s
  | .syscall => Sys2Proof.Machine.execSyscall s
  | .syscallAlias w => Sys2Proof.Machine.execSyscallAlias w s
  | .beq rs rt imm => Sys2Proof.Machine.execBeq rs rt imm s
  | .bne rs rt imm => Sys2Proof.Machine.execBne rs rt imm s
  | .addi rt rs imm => Sys2Proof.Machine.execAddi rt rs imm s
  | .slti rt rs imm => Sys2Proof.Machine.execSlti rt rs imm s
  | .andi rt rs imm => Sys2Proof.Machine.execAndi rt rs imm s
  | .ori rt rs imm => Sys2Proof.Machine.execOri rt rs imm s
  | .lui rt imm => Sys2Proof.Machine.execLui rt imm s
  | .mul d rs rt => Sys2Proof.Machine.execMul d rs rt s

end Sys2Proof.Machine
end

