-- ==== Sys2Proof/Machine/Step.lean ====
section
/-! DEFINITION. The step of R106, and how a word is put where the next step fetches it. -/

namespace Sys2Proof.Machine

/-- R106: the range check (R101), fetch and decode (R102), then the operation with its register write, dispatch and
next cursor (R103 to R105), in the order of R205. In a terminal status no step is enabled (R107). -/
def step (s : State) : Host.Outcome State Fault Refusal :=
  match s.status with
  | .running =>
    match s.prog.fetch s.pc with
    | none => .next (s.halt .endOfProgram)
    | some w =>
      match decode w with
      | .invalid _ => .next (s.raiseDecodeFault w)
      | .op i => exec i s
  | .halted _ => .fault .notRunning
  | .faulted _ => .fault .notRunning

/-- `s` with an instruction word placed at the line the next step fetches, and the run status `Running`. A cursor
below 0 names no line, so it is set to line 0. The rest is kept (log entry 15). -/
def State.withFetchWord (s : State) (nbits w : Nat) : State :=
  { s with
    pc := s.pc.toNat
    status := .running
    prog := s.prog.place s.pc.toNat (BitVec.ofNat 32 (w % 2 ^ nbits)) }

end Sys2Proof.Machine
end

