-- ==== Sys2Proof/Machine/Boot.lean ====
section
/-! DEFINITION. Loading a program before reset (R54, R233, R234). -/

namespace Sys2Proof.Machine

/-- The first word of a listing that does not decode, if there is one. -/
def firstUndecodable : Memory → Option Word
  | [] => none
  | w :: m => if decodes w then firstUndecodable m else some w

/-- Load a listing and apply reset: "before reset the host must load the program" (R233), "there is one kind of
reset; it is applied once per run, after the program is loaded and before the first step" (R230). A listing over
CAPACITY starts no run (R54, D9), nor does one with an illegal word under PRELOAD_VALIDATE (R234, D8); where both
hold, the length is reported (log entry 11). -/
def boot (cfg : Config) (listing : Memory) : Result :=
  if ¬ listing.wf cfg then .refused (.overCapacity listing.length)
  else if cfg.preloadValidate then
    match firstUndecodable listing with
    | some w => .refused (.undecodableWord w)
    | none => .next { State.reset with prog := listing }
  else .next { State.reset with prog := listing }

end Sys2Proof.Machine
end

