-- ==== Sys2Proof/Machine/Observe.lean ====
section
/-! DEFINITION. What the outside sees: the output ports (R39), the status codes (R200), the text of console events
(R143 to R145), the register dump (R215) and the assembly text of a word (R87 to R89). Nothing here changes state. -/

namespace Sys2Proof.Machine

/-! ## The output ports (R39) -/

/-- The output ports of the block. -/
structure Ports where
  status : Status
  out : List Event
  regs : List Word
  pc : Int
  deriving DecidableEq, Repr

/-- `regs[0..31]`, the register file as seen through the read port (R39). -/
def portRegs (s : State) : List Word := (List.range 32).map fun k => s.read (BitVec.ofNat 5 k)

/-- The values at the output ports (R39). -/
def ports (s : State) : Ports := { status := s.status, out := s.out, regs := portRegs s, pc := s.pc }

/-- The termination code of R200, this spec's own label (D10); none while running. -/
def Status.code : Status → Option Nat
  | .running => none
  | .halted .endOfProgram => some 0
  | .halted .exit => some 1
  | .halted (.unknownSyscall _) => some 2
  | .faulted _ => some 3

/-! ## Console text -/

/-- The text of an event. `PrintInt(v)`: the signed decimal, no newline or separator (R143). `PrintChar(v)`: the
ASCII character when `signed(v)` is 0 to 127, else CHAR_RENDER (R144, D6). `UnknownSyscall(v)`: the host's (D7). -/
def Event.text (cfg : Config) : Event → String
  | .printInt v => toString (signed v)
  | .printChar v =>
    if 0 ≤ signed v ∧ signed v ≤ 127 then String.singleton (Char.ofNat (unsigned v)) else cfg.charRender v
  | .unknownSyscall v => cfg.diagnostic v

/-- The console text of the run so far, events "as encountered, in program order" (R33, R216). -/
def consoleText (cfg : Config) (s : State) : String := String.join (s.out.map (Event.text cfg))

/-! ## The register dump -/

/-- The lines of the dump as data: one for each non-zero register, in ascending index order, with the signed value
(R215, D14). -/
def dumpEntries (s : State) : List (Nat × Int) :=
  ((List.range 32).map fun k => (k, signed (s.read (BitVec.ofNat 5 k)))).filter fun e => e.2 ≠ 0

/-- "formatted as `$<index> = <value>`" (R215). -/
def dumpLine (e : Nat × Int) : String := "$" ++ toString e.1 ++ " = " ++ toString e.2

/-- The dump is presented after a halt; after a decode fault there is none (R201, R202, D13, D14). -/
def registerDump (s : State) : Option (List String) :=
  match s.status with
  | .halted _ => some ((dumpEntries s).map dumpLine)
  | .running => none
  | .faulted _ => none

/-! ## Assembly text -/

/-- `$` followed by the decimal index (R88). -/
def regText (r : Reg) : String := "$" ++ toString r.toNat

/-- The signed decimal of an immediate, the spec's notation for addi, slti, beq and bne (R89, D16). -/
def immDecimal (imm : Imm) : String := toString (lineDelta imm)

/-- One hexadecimal digit, lower case. -/
def hexDigit (d : BitVec 4) : String :=
  String.singleton (if d.toNat < 10 then Char.ofNat (48 + d.toNat) else Char.ofNat (87 + d.toNat))

/-- `0x....` of the raw 16 bits, the spec's notation for andi, ori and lui (R89, D16). -/
def immHex (imm : Imm) : String :=
  "0x" ++ hexDigit (imm.extractLsb' 12 4) ++ hexDigit (imm.extractLsb' 8 4) ++ hexDigit (imm.extractLsb' 4 4)
    ++ hexDigit (imm.extractLsb' 0 4)

/-- Three register operands. -/
def text3 (a b c : Reg) : String := regText a ++ ", " ++ regText b ++ ", " ++ regText c

/-- The operands of an instruction in the order of R87. -/
def operandText : Instr → String
  | .add d s t => text3 d s t
  | .sub d s t => text3 d s t
  | .and d s t => text3 d s t
  | .or d s t => text3 d s t
  | .slt d s t => text3 d s t
  | .syscall => ""
  | .syscallAlias _ => ""
  | .beq s t imm => regText s ++ ", " ++ regText t ++ ", " ++ immDecimal imm
  | .bne s t imm => regText s ++ ", " ++ regText t ++ ", " ++ immDecimal imm
  | .addi t s imm => regText t ++ ", " ++ regText s ++ ", " ++ immDecimal imm
  | .slti t s imm => regText t ++ ", " ++ regText s ++ ", " ++ immDecimal imm
  | .andi t s imm => regText t ++ ", " ++ regText s ++ ", " ++ immHex imm
  | .ori t s imm => regText t ++ ", " ++ regText s ++ ", " ++ immHex imm
  | .lui t imm => regText t ++ ", " ++ immHex imm
  | .mul d s t => text3 d s t

/-- `<mnemonic> <operands>` (R87); a syscall-class word shows as `syscall` alone. -/
def asmText (i : Instr) : String :=
  if operandText i = "" then i.mnemonic else i.mnemonic ++ " " ++ operandText i

/-- The trace line `<lineNumber>: <mnemonic> <operands>` (R87) of a word that decodes. -/
def traceLine (line : Nat) (w : Word) : Option String :=
  match decode w with
  | .op i => some (toString line ++ ": " ++ asmText i)
  | .invalid _ => none

end Sys2Proof.Machine
end

