-- ==== Sys2Proof/Safety.lean ====
section
/-! DEFINITION. The terms claims are stated in: what an instruction changes and leaves alone, the invariant of the
machine, runs of loaded programs, and what a safe run is. -/

namespace Sys2Proof.Machine

/-! ## Effects with their frames -/

/-- From `s` to `t` the value `v` went through the write port to register `d` and the cursor moved to the next line;
nothing else changed. Registers are compared through the read port, and entry 0, which it hides, by itself. The
program, the block's only memory, is the same list, so every line fetches as before. -/
def OnlyRegister (s t : State) (d : Reg) (v : Word) : Prop :=
  (∀ r, t.read r = if r = d ∧ d ≠ 0#5 then v else s.read r) ∧ t.regs[0] = s.regs[0] ∧
  t.pc = s.pc + 1 ∧ t.status = s.status ∧ t.out = s.out ∧ t.prog = s.prog

/-- From `s` to `t` the cursor went to `c`, and nothing else changed. -/
def OnlyCursor (s t : State) (c : Int) : Prop :=
  t.pc = c ∧ t.regs = s.regs ∧ t.status = s.status ∧ t.out = s.out ∧ t.prog = s.prog

/-- From `s` to `t` the events `es` were appended to the log, the status became `st` and the cursor `c`; no register
and no line of the program changed. -/
def OnlySyscall (s t : State) (es : List Event) (st : Status) (c : Int) : Prop :=
  t.out = s.out ++ es ∧ t.status = st ∧ t.pc = c ∧ t.regs = s.regs ∧ t.prog = s.prog

/-- The registers an instruction reads in state `s`, by the table of R25; the dispatcher reads `x[4]` only "when
`x[2]` is 1 or 11". -/
def readSet (s : State) : Instr → List Reg
  | .add _ rs rt => [rs, rt]
  | .sub _ rs rt => [rs, rt]
  | .and _ rs rt => [rs, rt]
  | .or _ rs rt => [rs, rt]
  | .slt _ rs rt => [rs, rt]
  | .syscall => if s.read 2#5 = 1#32 ∨ s.read 2#5 = 11#32 then [2#5, 4#5] else [2#5]
  | .syscallAlias _ => []
  | .beq rs rt _ => [rs, rt]
  | .bne rs rt _ => [rs, rt]
  | .addi _ rs _ => [rs]
  | .slti _ rs _ => [rs]
  | .andi _ rs _ => [rs]
  | .ori _ rs _ => [rs]
  | .lui _ _ => []
  | .mul _ rs rt => [rs, rt]

/-- The register an instruction writes through the write port, by the table of R25; `mul` "only when `t != 0`". -/
def writeTarget : Instr → Option Reg
  | .add d _ _ => some d
  | .sub d _ _ => some d
  | .and d _ _ => some d
  | .or d _ _ => some d
  | .slt d _ _ => some d
  | .syscall => none
  | .syscallAlias _ => none
  | .beq _ _ _ => none
  | .bne _ _ _ => none
  | .addi t _ _ => some t
  | .slti t _ _ => some t
  | .andi t _ _ => some t
  | .ori t _ _ => some t
  | .lui t _ => some t
  | .mul d _ rt => if rt = 0#5 then none else some d

/-- The bits of its word that an instruction does not ignore (R79). -/
def significantBits : Instr → Word
  | .add _ _ _ => 0xFFFFFFFF#32
  | .sub _ _ _ => 0xFFFFFFFF#32
  | .and _ _ _ => 0xFFFFFFFF#32
  | .or _ _ _ => 0xFFFFFFFF#32
  | .slt _ _ _ => 0xFFFFFFFF#32
  | .syscall => 0xFFFFFFFF#32
  | .syscallAlias _ => 0xFFFFFFFF#32
  | .beq _ _ _ => 0xFFFFFFFF#32
  | .bne _ _ _ => 0xFFFFFFFF#32
  | .addi _ _ _ => 0xFFFFFFFF#32
  | .slti _ _ _ => 0xFFFFFFFF#32
  | .andi _ _ _ => 0xFFFFFFFF#32
  | .ori _ _ _ => 0xFFFFFFFF#32
  | .lui _ _ => 0xFC1FFFFF#32
  | .mul _ _ _ => 0xFFFFF800#32

/-- The branch taken at `s` by the instruction `i`, if it is a branch whose condition holds: its immediate
(R105 case 1). -/
def takenBranch (s : State) : Instr → Option Imm
  | .add _ _ _ => none
  | .sub _ _ _ => none
  | .and _ _ _ => none
  | .or _ _ _ => none
  | .slt _ _ _ => none
  | .syscall => none
  | .syscallAlias _ => none
  | .beq rs rt imm => if s.read rs = s.read rt then some imm else none
  | .bne rs rt imm => if s.read rs = s.read rt then none else some imm
  | .addi _ _ _ => none
  | .slti _ _ _ => none
  | .andi _ _ _ => none
  | .ori _ _ _ => none
  | .lui _ _ => none
  | .mul _ _ _ => none

/-! ## The invariant -/

/-- No unknown-syscall event stands in the list. -/
def NoUnknown (es : List Event) : Prop := ∀ v, Event.unknownSyscall v ∉ es

/-- What each run status says about the rest of the state (R200): the cause of the ending is still there to see,
because "every ending is precise" (R206), and an unknown-syscall event ends its run (R145). -/
def StatusMeaning (s : State) : Prop :=
  match s.status with
  | .running => NoUnknown s.out
  | .halted .endOfProgram => (s.pc < 0 ∨ s.prog.length ≤ s.pc) ∧ NoUnknown s.out
  | .halted .exit =>
    s.prog.fetch s.pc = some 0x0000000C#32 ∧ s.read 2#5 = 10#32 ∧ NoUnknown s.out
  | .halted (.unknownSyscall v) =>
    s.prog.fetch s.pc = some 0x0000000C#32 ∧ s.read 2#5 = v ∧ v ≠ 1#32 ∧ v ≠ 10#32 ∧ v ≠ 11#32 ∧
    ∃ es, s.out = es ++ [.unknownSyscall v] ∧ NoUnknown es
  | .faulted w => s.prog.fetch s.pc = some w ∧ decodes w = false ∧ NoUnknown s.out

/-- The bounds of the line cursor: "every value it can take lies in [-32768, N - 1 + 32767]" (R28). -/
def CursorBounded (s : State) : Prop :=
  -32768 ≤ s.pc ∧ s.pc ≤ (s.prog.length : Int) - 1 + 32767

/-- The invariant of the machine. -/
structure Inv (cfg : Config) (s : State) : Prop where
  /-- Entry 0 holds 0 (R23, R40). -/
  zero : s.regs[0] = 0#32
  /-- The program fits the store (R54). -/
  capacity : s.prog.wf cfg = true
  /-- The cursor keeps its bounds (R28). -/
  cursor : CursorBounded s
  /-- The status tells the truth (R200). -/
  status : StatusMeaning s

/-! ## Runs and safety -/

/-- The state `s` is reached by `k` steps of a program that `boot` admits. -/
def Reached (cfg : Config) (listing : Memory) (k : Nat) (s : State) : Prop :=
  ∃ s₀, boot cfg listing = .next s₀ ∧ Sys2Proof.core.run k s₀ = .next s

/-- A state is safe when no decode fault ended the run: "the only fault is the decode fault" (R203). -/
def NotFaulted (s : State) : Prop := ∀ w, s.status ≠ .faulted w

/-- Every word of the program decodes: the premise D8 recommends for claims. -/
def ProgramDecodes (m : Memory) : Prop := ∀ w ∈ m, decodes w = true

end Sys2Proof.Machine
end

