-- ==== Sys2Proof/Certificates/Slice0/Obligations.lean ====
section
/-! DEFINITION. The statements for the provers. Each docstring names the rule it formalises. -/

open Sys2Proof Sys2Proof.Machine

/-! ## Reset and boot -/

/-- R40: the reset value of every piece of state. -/
def Obligations.ResetLeavesTheSpecifiedValues : Prop :=
  (∀ k : Fin 32, State.reset.regs[k] = 0#32) ∧ State.reset.pc = 0 ∧ State.reset.status = .running ∧
  State.reset.out = []

/-- R231: reset leaves a state that does not depend on anything that happened before it: registers 0, line 0,
running, empty log, whatever the machine held; the loaded program, an input, stays. -/
def Obligations.ResetForgetsEverythingBefore : Prop :=
  ∀ s : State,
    (∀ k : Fin 32, s.resetEvent.regs[k] = 0#32) ∧ (∀ r, s.resetEvent.read r = 0#32) ∧ s.resetEvent.pc = 0 ∧
    s.resetEvent.status = .running ∧ s.resetEvent.out = [] ∧ s.resetEvent.prog = s.prog ∧
    ∀ s' : State, s'.prog = s.prog → s'.resetEvent = s.resetEvent

/-- Derived from R54, R101 and log entry 11. R54: the default capacity is 1000, a longer listing starts no run, and a
listing within capacity of decodable words starts one from reset. That the empty program halts at its first step is
R54's own remark from R101. That every overlong listing is reported as `overCapacity`, also one that holds an illegal
word under PRELOAD_VALIDATE, is the model's choice of report (log entry 11, DESIGN CHOICE). -/
def Obligations.BootRefusesOverlongListings : Prop :=
  (∀ p c d, ({ preloadValidate := p, charRender := c, diagnostic := d } : Config).capacity = 1000) ∧
  (∀ cfg listing, cfg.capacity < listing.length → boot cfg listing = .refused (.overCapacity listing.length)) ∧
  (∀ cfg listing, listing.length ≤ cfg.capacity → ProgramDecodes listing →
    boot cfg listing = .next { State.reset with prog := listing }) ∧
  (∀ cfg, ∃ s, boot cfg [] = .next s ∧ step s = .next { s with status := .halted .endOfProgram })

/-- R234: both settings of PRELOAD_VALIDATE. -/
def Obligations.PreloadValidationGuardsTheRun : Prop :=
  (∀ cfg listing, cfg.preloadValidate = false → listing.length ≤ cfg.capacity →
    boot cfg listing = .next { State.reset with prog := listing }) ∧
  (∀ s t w, s.status = .running → step s = .next t → t.status = .faulted w →
    s.prog.fetch s.pc = some w ∧ decodes w = false) ∧
  (∀ cfg listing, cfg.preloadValidate = true → listing.length ≤ cfg.capacity → ¬ ProgramDecodes listing →
    ∃ w ∈ listing, decodes w = false ∧ boot cfg listing = .refused (.undecodableWord w)) ∧
  (∀ cfg cfg' listing, cfg.capacity = cfg'.capacity → ProgramDecodes listing →
    boot cfg listing = boot cfg' listing)

/-! ## Values and the register file -/

/-- R11: the two widenings of a 16-bit value. -/
def Obligations.SignAndZeroExtension : Prop :=
  ∀ v : Imm,
    (v.toNat < 0x8000 → signed (sext16 v) = v.toNat) ∧
    (0x8000 ≤ v.toNat → signed (sext16 v) = (v.toNat : Int) - 0x10000) ∧
    (sext16 v).extractLsb' 0 16 = v ∧ (∀ k, 16 ≤ k → k < 32 → (sext16 v).getLsbD k = v.getLsbD 15) ∧
    (zext16 v).extractLsb' 0 16 = v ∧ (∀ k, 16 ≤ k → k < 32 → (zext16 v).getLsbD k = false)

/-- R12: the operators on 32-bit patterns. Sums, differences and products are the exact results on the signed values
modulo 2^32. -/
def Obligations.OperatorsOnPatterns : Prop :=
  ∀ a b : Word,
    (unsigned (addWord a b) : Int) = (signed a + signed b) % 2 ^ 32 ∧
    (unsigned (subWord a b) : Int) = (signed a - signed b) % 2 ^ 32 ∧
    (unsigned (mulWord a b) : Int) = (signed a * signed b) % 2 ^ 32 ∧
    (∀ k, (andWord a b).getLsbD k = (a.getLsbD k && b.getLsbD k)) ∧
    (∀ k, (orWord a b).getLsbD k = (a.getLsbD k || b.getLsbD k)) ∧
    (∀ n k, k < 32 → (shlWord a n).getLsbD k = (decide (n ≤ k) && a.getLsbD (k - n))) ∧
    (lessSigned a b = true ↔ signed a < signed b) ∧ boolWord true = 0x00000001#32 ∧ boolWord false = 0x00000000#32

/-- R190's remark on the product: its low 32 bits are the same for a signed and an unsigned product; and the same
for sums and differences (derived from R12). -/
def Obligations.SignednessDoesNotMatterModulo32Bits : Prop :=
  ∀ a b : Word,
    unsigned (mulWord a b) = unsigned a * unsigned b % 2 ^ 32 ∧
    unsigned (addWord a b) = (unsigned a + unsigned b) % 2 ^ 32 ∧
    (unsigned (subWord a b) : Int) = ((unsigned a : Int) - unsigned b) % 2 ^ 32

/-- R23: the write port stores at an index other than 0 and does nothing at 0, register 0 always reads 0, and each
step uses the port at most once (a step that writes nothing is a write to index 0). -/
def Obligations.WritePortAndZeroRegister : Prop :=
  (∀ (s : State) v, s.write 0#5 v = s) ∧
  (∀ (s : State) r v k, (s.write r v).read k = if k = r ∧ r ≠ 0#5 then v else s.read k) ∧
  (∀ (s : State) r v, (s.write r v).pc = s.pc ∧ (s.write r v).status = s.status ∧ (s.write r v).out = s.out ∧
    (s.write r v).prog = s.prog) ∧
  (∀ s : State, s.read 0#5 = 0#32) ∧
  (∀ s t, step s = .next t → ∃ d v, t.regs = (s.write d v).regs)

/-- R25: the register use table. An instruction's effect depends on no register but those the table says it reads,
and it changes no register but the one the table says it writes. -/
def Obligations.RegisterUseTable : Prop :=
  (∀ i s t, exec i s = .next t → ∀ r, writeTarget i ≠ some r → t.read r = s.read r) ∧
  (∀ i s s' t, i.wellFormed = true → (∀ r ∈ readSet s i, s'.read r = s.read r) → exec i s = .next t →
    ∃ t', exec i s' = .next t' ∧ (∀ r, writeTarget i = some r → t'.read r = t.read r) ∧
      t'.pc - s'.pc = t.pc - s.pc ∧ (∃ es, t.out = s.out ++ es ∧ t'.out = s'.out ++ es) ∧
      ((t.status = s.status ∧ t'.status = s'.status) ∨ t'.status = t.status))

/-! ## Decoding and encoding -/

/-- Words written out bit by bit from the formats and keys of R74, R76 and R78, one of each family and one illegal
word. -/
def Obligations.WrittenOutWordsDecode : Prop :=
  decode 0b000000_00001_00010_00011_00000100000#32 = .op (.add 3 1 2) ∧
  decode 0b000000_00000_00000_00000_00000001100#32 = .op .syscall ∧
  decode 0b000100_00001_00010_1111111111111011#32 = .op (.beq 1 2 0xFFFB) ∧
  decode 0b001000_00000_00001_0000000000000101#32 = .op (.addi 1 0 5) ∧
  decode 0b011100_01010_00110_01011_00000000000#32 = .op (.mul 11 10 6) ∧
  decode 0b000000_11111_00000_00000_00000001000#32 = .invalid .unrecognizedBase

/-- R71: every field is the shift and mask of the source's formula, and `d` is bits 15 to 11 of `imm`. -/
def Obligations.FieldsAreShiftsAndMasks : Prop :=
  ∀ w : Word,
    sField w = ((w >>> 21) &&& 0x1F#32).setWidth 5 ∧ tField w = ((w >>> 16) &&& 0x1F#32).setWidth 5 ∧
    dField w = ((w >>> 11) &&& 0x1F#32).setWidth 5 ∧ immField w = (w &&& 0xFFFF#32).setWidth 16 ∧
    dField w = (immField w).extractLsb' 11 5

/-- Decoding the word of a well-formed instruction gives the instruction back, with every operand (R75, R91). -/
def Obligations.DecodeOfEncodeIsTheInstruction : Prop :=
  ∀ i : Instr, i.wellFormed = true → decode (encode i) = .op i

/-- Derived from R79, R91 and R75. The bits of `lui` and `mul` that R79 names may hold any value: another word that
agrees on the significant bits decodes to the same instruction. On those bits the word is its instruction's encoding,
since the encoder writes 0 in the ignored ones: by R91 for `mul`, by the model's choice for the field `s` of `lui` (log
entry 13, DESIGN CHOICE). For a syscall-class word R79 has another row, bits ignored by the classification alone; here
all bits are significant, because `Syscall(w)` keeps the word (R75) and so does the model's alias (log entry 12,
DESIGN CHOICE). Every instruction the decoder answers is well formed. -/
def Obligations.OnlyIgnoredBitsAreLost : Prop :=
  ∀ w i, decode w = .op i →
    i.wellFormed = true ∧ w &&& significantBits i = encode i ∧
    ∀ w', w' &&& significantBits i = encode i → decode w' = .op i

/-- R77: the syscall class is exactly match 0x0000000C under mask 0xFC00000C; only the word 0x0000000C is the
instruction that dispatches, the other words are aliases, and the mnemonic is `syscall` for all. (The count of 512
keys in R77 is the spec's own derived remark and is not stated here.) -/
def Obligations.SyscallClassIsTheBitTest : Prop :=
  (∀ w, w &&& 0xFC00000C#32 = 0x0000000C#32 ↔ decode w = .op .syscall ∨ decode w = .op (.syscallAlias w)) ∧
  (∀ w, decode w = .op .syscall ↔ w = 0x0000000C#32) ∧
  (∀ w, w &&& 0xFC00000C#32 = 0x0000000C#32 → mnemonicOf w = some "syscall") ∧
  (∀ w, w &&& 0xFC00000C#32 = 0x0000000C#32 → baseKey w ∉ [0x020#32, 0x022#32, 0x024#32, 0x025#32, 0x02A#32])

/-- R82: the illegal space, with the two diagnostics, and fetching an illegal word is a decode fault. -/
def Obligations.IllegalSpaceIsExact : Prop :=
  (∀ w, decode w = .invalid .unrecognizedBase ↔
    op6 w = 0x00#6 ∧ w.extractLsb' 0 11 ∉ [0x020#11, 0x022#11, 0x024#11, 0x025#11, 0x02A#11] ∧
    ¬ (w.getLsbD 3 = true ∧ w.getLsbD 2 = true)) ∧
  (∀ w, decode w = .invalid .unrecognizedExtended ↔
    op6 w ∉ [0x00#6, 0x04#6, 0x05#6, 0x08#6, 0x0A#6, 0x0C#6, 0x0D#6, 0x0F#6, 0x1C#6]) ∧
  (∀ s w why, s.status = .running → s.prog.fetch s.pc = some w → decode w = .invalid why →
    step s = .next { s with status := .faulted w })

/-- R86: the mnemonic output of a word is the mnemonic of the operation it decodes to, each of the fourteen names
written out, and an invalid indication exactly when the word does not decode. It holds of every word, with any value
in the ignored bits; a syscall-class word shows as `syscall` in both of the model's constructors (log entry 12). That
computing it changes no state is its type: it takes the word alone and answers a name. -/
def Obligations.MnemonicOutputIsOneOfFourteen : Prop :=
  (∀ w m, mnemonicOf w = some m →
    m ∈ ["add", "sub", "and", "or", "slt", "syscall", "beq", "bne", "addi", "slti", "andi", "ori", "lui", "mul"]) ∧
  (∀ w, mnemonicOf w = some "add" ↔ ∃ d s t, decode w = .op (.add d s t)) ∧
  (∀ w, mnemonicOf w = some "sub" ↔ ∃ d s t, decode w = .op (.sub d s t)) ∧
  (∀ w, mnemonicOf w = some "and" ↔ ∃ d s t, decode w = .op (.and d s t)) ∧
  (∀ w, mnemonicOf w = some "or" ↔ ∃ d s t, decode w = .op (.or d s t)) ∧
  (∀ w, mnemonicOf w = some "slt" ↔ ∃ d s t, decode w = .op (.slt d s t)) ∧
  (∀ w, mnemonicOf w = some "syscall" ↔ decode w = .op .syscall ∨ ∃ w', decode w = .op (.syscallAlias w')) ∧
  (∀ w, mnemonicOf w = some "beq" ↔ ∃ s t imm, decode w = .op (.beq s t imm)) ∧
  (∀ w, mnemonicOf w = some "bne" ↔ ∃ s t imm, decode w = .op (.bne s t imm)) ∧
  (∀ w, mnemonicOf w = some "addi" ↔ ∃ t s imm, decode w = .op (.addi t s imm)) ∧
  (∀ w, mnemonicOf w = some "slti" ↔ ∃ t s imm, decode w = .op (.slti t s imm)) ∧
  (∀ w, mnemonicOf w = some "andi" ↔ ∃ t s imm, decode w = .op (.andi t s imm)) ∧
  (∀ w, mnemonicOf w = some "ori" ↔ ∃ t s imm, decode w = .op (.ori t s imm)) ∧
  (∀ w, mnemonicOf w = some "lui" ↔ ∃ t imm, decode w = .op (.lui t imm)) ∧
  (∀ w, mnemonicOf w = some "mul" ↔ ∃ d s t, decode w = .op (.mul d s t)) ∧
  (∀ w, mnemonicOf w = none ↔ ∃ why, decode w = .invalid why)

/-- The mnemonic columns of R76 and R78 and the mnemonic of R77, read from the word's bits (derived from R86 with these
rules): a word shows a name exactly when it has that row's match under that row's mask. -/
def Obligations.MnemonicFollowsMatchAndMask : Prop :=
  (∀ w, mnemonicOf w = some "add" ↔ w &&& 0xFC0007FF#32 = 0x00000020#32) ∧
  (∀ w, mnemonicOf w = some "sub" ↔ w &&& 0xFC0007FF#32 = 0x00000022#32) ∧
  (∀ w, mnemonicOf w = some "and" ↔ w &&& 0xFC0007FF#32 = 0x00000024#32) ∧
  (∀ w, mnemonicOf w = some "or" ↔ w &&& 0xFC0007FF#32 = 0x00000025#32) ∧
  (∀ w, mnemonicOf w = some "slt" ↔ w &&& 0xFC0007FF#32 = 0x0000002A#32) ∧
  (∀ w, mnemonicOf w = some "syscall" ↔ w &&& 0xFC00000C#32 = 0x0000000C#32) ∧
  (∀ w, mnemonicOf w = some "beq" ↔ w &&& 0xFC000000#32 = 0x10000000#32) ∧
  (∀ w, mnemonicOf w = some "bne" ↔ w &&& 0xFC000000#32 = 0x14000000#32) ∧
  (∀ w, mnemonicOf w = some "addi" ↔ w &&& 0xFC000000#32 = 0x20000000#32) ∧
  (∀ w, mnemonicOf w = some "slti" ↔ w &&& 0xFC000000#32 = 0x28000000#32) ∧
  (∀ w, mnemonicOf w = some "andi" ↔ w &&& 0xFC000000#32 = 0x30000000#32) ∧
  (∀ w, mnemonicOf w = some "ori" ↔ w &&& 0xFC000000#32 = 0x34000000#32) ∧
  (∀ w, mnemonicOf w = some "lui" ↔ w &&& 0xFC000000#32 = 0x3C000000#32) ∧
  (∀ w, mnemonicOf w = some "mul" ↔ w &&& 0xFC000000#32 = 0x70000000#32)

/-! ## The engine -/

/-- A step from `Running` on a fetched word that decodes is that instruction's meaning; the step adds nothing around
it (R106). -/
def Obligations.StepRunsTheDecodedInstruction : Prop :=
  ∀ s w i, s.status = .running → s.prog.fetch s.pc = some w → decode w = .op i → step s = exec i s

/-- A word placed by withFetchWord is the very one the next step runs, and the registers, the log and the other lines
of the program are kept (the model's own operation, log entry 15; the step is R106). -/
def Obligations.PlacedWordRunsNext : Prop :=
  ∀ (s : State) (w : Word) i, decode w = .op i →
    step (s.withFetchWord 32 w.toNat) = exec i (s.withFetchWord 32 w.toNat) ∧
    (s.withFetchWord 32 w.toNat).regs = s.regs ∧ (s.withFetchWord 32 w.toNat).out = s.out ∧
    (0 ≤ s.pc → (s.withFetchWord 32 w.toNat).pc = s.pc) ∧
    ∀ j : Int, j ≠ (s.withFetchWord 32 w.toNat).pc → s.prog.inRange j = true →
      (s.withFetchWord 32 w.toNat).prog.fetch j = s.prog.fetch j

/-- R101: a cursor outside [0, N) halts the run, before anything is fetched, and changes nothing but the status. -/
def Obligations.CursorOutsideTheProgramHalts : Prop :=
  ∀ s, s.status = .running → (s.pc < 0 ∨ (s.prog.length : Int) ≤ s.pc) →
    step s = .next { s with status := .halted .endOfProgram }

/-- R201: a decode fault happens exactly when the fetched word does not decode; it records the whole word, changes
only the status, keeps the log, shows no dump, and the run does not continue. -/
def Obligations.DecodeFaultIsExactAndPrecise : Prop :=
  ∀ s w, s.status = .running →
    ((∃ t, step s = .next t ∧ t.status = .faulted w) ↔ (s.prog.fetch s.pc = some w ∧ decodes w = false)) ∧
    (∀ t, step s = .next t → t.status = .faulted w →
      t = { s with status := .faulted w } ∧ registerDump t = none ∧ ∀ t', step t ≠ .next t')

/-- R107 and R106: a step is enabled exactly while the status is `Running`, whatever the instruction, and no step
refuses. That a step which is not enabled answers the fault notRunning is the model's choice (log entry 3). -/
def Obligations.StepIsEnabledExactlyWhileRunning : Prop :=
  ∀ s, ((∃ t, step s = .next t) ↔ s.status = .running) ∧ (s.status ≠ .running → step s = .fault .notRunning) ∧
    (∀ r, step s ≠ .refused r) ∧ s.resetEvent.status = .running

/-- R110: the cursor changes only to the next line, to the target of a taken branch, or is held by a halt or fault;
reset sets it to 0; no instruction writes the cursor anywhere but into the cursor or reads it into anything else. -/
def Obligations.CursorChangesOnlyThreeWays : Prop :=
  (∀ s t, step s = .next t →
    (t.status ≠ .running ∧ t.pc = s.pc) ∨
    (t.status = .running ∧ t.pc = s.pc + 1) ∨
    (t.status = .running ∧ ∃ w i imm, s.prog.fetch s.pc = some w ∧ decode w = .op i ∧
      takenBranch s i = some imm ∧ t.pc = s.pc + signed (sext16 imm))) ∧
  State.reset.pc = 0 ∧
  (∀ i s c t, exec i s = .next t →
    exec i { s with pc := c } = .next { t with pc := c + (t.pc - s.pc) })

/-- R53 and R65: no step writes the program, so every fetch of a line in a run returns the same word. -/
def Obligations.ProgramIsImmutable : Prop :=
  (∀ s t, step s = .next t → t.prog = s.prog) ∧
  (∀ k (s t : State), Sys2Proof.core.run k s = .next t → ∀ j : Int, t.prog.fetch j = s.prog.fetch j)

/-- R33 and R62: the log only grows, by at most one event a step, which only the syscall word produces from the
selector and the argument register; what is in the log stays there through any run. -/
def Obligations.OutputLogOnlyGrows : Prop :=
  (∀ s t, step s = .next t → t.out = s.out ∨
    (s.prog.fetch s.pc = some 0x0000000C#32 ∧
      ((s.read 2#5 = 1#32 ∧ t.out = s.out ++ [.printInt (s.read 4#5)]) ∨
       (s.read 2#5 = 11#32 ∧ t.out = s.out ++ [.printChar (s.read 4#5)]) ∨
       (s.read 2#5 ∉ [1#32, 10#32, 11#32] ∧ t.out = s.out ++ [.unknownSyscall (s.read 2#5)])))) ∧
  (∀ k (s t : State), Sys2Proof.core.run k s = .next t → s.out <+: t.out)

/-- R205 and R206: a step that ends the run writes no register, moves no cursor and changes no line of the program;
it adds an event only for an unknown syscall (R145); and no step of the machine both writes a register and ends the
run. -/
def Obligations.EveryEndingIsPrecise : Prop :=
  ∀ s t, step s = .next t → t.status ≠ .running →
    t.regs = s.regs ∧ t.pc = s.pc ∧ t.prog = s.prog ∧
    ((t.out = s.out ∧ ∀ v, t.status ≠ .halted (.unknownSyscall v)) ∨
      ∃ v, t.status = .halted (.unknownSyscall v) ∧ t.out = s.out ++ [.unknownSyscall v])

/-- No information passes from one step to the next except through the registers, the cursor, the status and the log
(R37, R109): two machines that agree on registers, cursor, status and the fetched word agree on the next registers,
cursor, status and appended events, whatever the rest of the program and the log hold. -/
def Obligations.StepSeesOnlyTheFetchedWord : Prop :=
  ∀ s s' t, s'.regs = s.regs → s'.pc = s.pc → s'.status = s.status → s'.prog.fetch s.pc = s.prog.fetch s.pc →
    step s = .next t →
    ∃ t' es, step s' = .next t' ∧ t'.regs = t.regs ∧ t'.pc = t.pc ∧ t'.status = t.status ∧
      t.out = s.out ++ es ∧ t'.out = s'.out ++ es

/-- R28: the cursor stays in [-32768, N - 1 + 32767], so 32 signed bits hold it for any capacity up to
2^31 - 32768. The bounds hold when a run starts and every step keeps them. -/
def Obligations.CursorStaysBounded : Prop :=
  (∀ cfg listing s, boot cfg listing = .next s → CursorBounded s) ∧
  (∀ s t, CursorBounded s → step s = .next t → CursorBounded t) ∧
  (∀ s, CursorBounded s → s.prog.length ≤ 2 ^ 31 - 32768 → (BitVec.ofInt 32 s.pc).toInt = s.pc)

/-- Every step keeps the invariant: entry 0 holds 0, the program fits, the cursor is bounded, and the status tells how
the run stands (R23, R54, R28, R200). -/
def Obligations.EveryStepKeepsTheInvariant : Prop :=
  ∀ cfg s t, Inv cfg s → step s = .next t → Inv cfg t

/-- The reset state, and the state in which any admitted program starts, meet the invariant. -/
def Obligations.StartMeetsTheInvariant : Prop :=
  (∀ cfg, Inv cfg State.reset) ∧ (∀ cfg listing s, boot cfg listing = .next s → Inv cfg s)

/-- R203: a decoded instruction never faults. Stepping a machine whose program decodes never reaches a decode fault,
so no run that load-time validation admits ends in one, however long it goes on. -/
def Obligations.DecodedProgramsNeverFault : Prop :=
  (∀ i s t, NotFaulted s → exec i s = .next t → NotFaulted t) ∧
  (∀ i s r, exec i s ≠ .fault r) ∧
  (∀ s t, ProgramDecodes s.prog → NotFaulted s → step s = .next t → NotFaulted t ∧ ProgramDecodes t.prog) ∧
  (∀ cfg listing k s, cfg.preloadValidate = true → Reached cfg listing k s → NotFaulted s)

/-! ## Base-group ALU instructions -/

/-- R120: the encoding, the sum and the frame of `add`. -/
def Obligations.AddWritesTheSum : Prop :=
  (∀ w, w &&& 0xFC0007FF#32 = 0x00000020#32 ↔ decode w = .op (.add (dField w) (sField w) (tField w))) ∧
  (∀ d rs rt s, ∃ t, exec (.add d rs rt) s = .next t ∧ OnlyRegister s t d (s.read rs + s.read rt))

/-- R121: the encoding, the difference and the frame of `sub`. -/
def Obligations.SubWritesTheDifference : Prop :=
  (∀ w, w &&& 0xFC0007FF#32 = 0x00000022#32 ↔ decode w = .op (.sub (dField w) (sField w) (tField w))) ∧
  (∀ d rs rt s, ∃ t, exec (.sub d rs rt) s = .next t ∧ OnlyRegister s t d (s.read rs - s.read rt))

/-- R122: the encoding, the bitwise and, and the frame of `and`. -/
def Obligations.AndWritesTheConjunction : Prop :=
  (∀ w, w &&& 0xFC0007FF#32 = 0x00000024#32 ↔ decode w = .op (.and (dField w) (sField w) (tField w))) ∧
  (∀ d rs rt s, ∃ t, exec (.and d rs rt) s = .next t ∧ OnlyRegister s t d (s.read rs &&& s.read rt))

/-- R123: the encoding, the bitwise or, and the frame of `or`. -/
def Obligations.OrWritesTheDisjunction : Prop :=
  (∀ w, w &&& 0xFC0007FF#32 = 0x00000025#32 ↔ decode w = .op (.or (dField w) (sField w) (tField w))) ∧
  (∀ d rs rt s, ∃ t, exec (.or d rs rt) s = .next t ∧ OnlyRegister s t d (s.read rs ||| s.read rt))

/-- R124: the encoding, the signed comparison and the frame of `slt`. -/
def Obligations.SltWritesTheSignedComparison : Prop :=
  (∀ w, w &&& 0xFC0007FF#32 = 0x0000002A#32 ↔ decode w = .op (.slt (dField w) (sField w) (tField w))) ∧
  (∀ d rs rt s, ∃ t, exec (.slt d rs rt) s = .next t ∧
    OnlyRegister s t d (if (s.read rs).toInt < (s.read rt).toInt then 1#32 else 0#32))

/-! ## Syscall -/

/-- R140: only the word 0x0000000C is the instruction, and it answers a next state for every selector: exit, print
integer, print character or the unknown-syscall halt, with the cursor at `i + 1` when it continues and at `i` when it
halts. -/
def Obligations.SyscallDispatchesOnTheSelector : Prop :=
  (∀ w, decode w = .op .syscall ↔ w = 0x0000000C#32) ∧
  (∀ s, ∃ t, exec .syscall s = .next t ∧
    (if s.read 2#5 = 0x0000000A#32 then OnlySyscall s t [] (.halted .exit) s.pc
     else if s.read 2#5 = 0x00000001#32 then OnlySyscall s t [.printInt (s.read 4#5)] s.status (s.pc + 1)
     else if s.read 2#5 = 0x0000000B#32 then OnlySyscall s t [.printChar (s.read 4#5)] s.status (s.pc + 1)
     else OnlySyscall s t [.unknownSyscall (s.read 2#5)] (.halted (.unknownSyscall (s.read 2#5))) s.pc))

/-- R142: selector 10 halts the run with no event, and the registers stay as they are for the dump. -/
def Obligations.SyscallTenExits : Prop :=
  ∀ s, s.read 2#5 = 10#32 → ∃ t, exec .syscall s = .next t ∧ OnlySyscall s t [] (.halted .exit) s.pc ∧
    registerDump t = some ((dumpEntries s).map dumpLine)

/-- R143: selector 1 emits PrintInt of register 4, whose text is its signed decimal, and continues. -/
def Obligations.SyscallOnePrintsTheInteger : Prop :=
  (∀ s, s.read 2#5 = 1#32 → ∃ t, exec .syscall s = .next t ∧
    OnlySyscall s t [.printInt (s.read 4#5)] s.status (s.pc + 1) ∧
    ∀ cfg, consoleText cfg t = consoleText cfg s ++ toString (s.read 4#5).toInt)

/-- R144: selector 11 emits PrintChar of the whole register 4 and continues; its text is the ASCII character for 0 to
127 and the host's CHAR_RENDER for every other value. -/
def Obligations.SyscallElevenPrintsTheCharacter : Prop :=
  (∀ s, s.read 2#5 = 11#32 → ∃ t, exec .syscall s = .next t ∧
    OnlySyscall s t [.printChar (s.read 4#5)] s.status (s.pc + 1) ∧
    ∀ cfg, consoleText cfg t = consoleText cfg s ++
      (if (s.read 4#5).toNat ≤ 127 then String.singleton (Char.ofNat (s.read 4#5).toNat) else cfg.charRender (s.read 4#5)))

/-- R145 and R147: exactly the selectors other than 1, 10 and 11 emit the diagnostic event with the whole value and
halt; exactly the selectors 1 and 11 continue. -/
def Obligations.UnknownSyscallHalts : Prop :=
  (∀ s, s.read 2#5 ∉ [1#32, 10#32, 11#32] ↔ ∃ t, exec .syscall s = .next t ∧
    OnlySyscall s t [.unknownSyscall (s.read 2#5)] (.halted (.unknownSyscall (s.read 2#5))) s.pc) ∧
  (∀ s, (∃ t, exec .syscall s = .next t ∧ t.pc = s.pc + 1) ↔ (s.read 2#5 = 1#32 ∨ s.read 2#5 = 11#32))

/-- R141: an alias is a word of opcode field 0 with bits 3 and 2 set, other than 0x0000000C; it shows as `syscall`,
reads and writes nothing, emits nothing and continues at `i + 1`, whatever the selector holds. -/
def Obligations.SyscallAliasDoesNothing : Prop :=
  (∀ w, decode w = .op (.syscallAlias w) ↔ w &&& 0xFC00000C#32 = 0x0000000C#32 ∧ w ≠ 0x0000000C#32) ∧
  (∀ w s, w ≠ 0x0000000C#32 → ∃ t, exec (.syscallAlias w) s = .next t ∧ OnlyCursor s t (s.pc + 1)) ∧
  (∀ w, w &&& 0xFC00000C#32 = 0x0000000C#32 → mnemonicOf w = some "syscall")

/-- R146: no syscall-class word writes a register and none redirects the cursor; one that leaves the machine running
goes to `i + 1`. -/
def Obligations.SyscallClassNeverWritesARegister : Prop :=
  ∀ s t w, s.status = .running → s.prog.fetch s.pc = some w → w &&& 0xFC00000C#32 = 0x0000000C#32 →
    step s = .next t →
    t.regs = s.regs ∧ (t.status = .running → t.pc = s.pc + 1) ∧ (t.status ≠ .running → t.pc = s.pc)

/-! ## Branches -/

/-- R160: the encoding, the condition and the next line of `beq`, with its frame. -/
def Obligations.BeqBranchesOnEquality : Prop :=
  (∀ w, w &&& 0xFC000000#32 = 0x10000000#32 ↔ decode w = .op (.beq (sField w) (tField w) (immField w))) ∧
  (∀ rs rt imm s, ∃ t, exec (.beq rs rt imm) s = .next t ∧
    OnlyCursor s t (if s.read rs = s.read rt then s.pc + signed (sext16 imm) else s.pc + 1))

/-- R161: the encoding, the condition and the next line of `bne`, with its frame. -/
def Obligations.BneBranchesOnInequality : Prop :=
  (∀ w, w &&& 0xFC000000#32 = 0x14000000#32 ↔ decode w = .op (.bne (sField w) (tField w) (immField w))) ∧
  (∀ rs rt imm s, ∃ t, exec (.bne rs rt imm) s = .next t ∧
    OnlyCursor s t (if s.read rs ≠ s.read rt then s.pc + signed (sext16 imm) else s.pc + 1))

/-- R162: the target of a taken branch is the branch's own line plus the sign-extended field, unscaled: offset `k`
from -32768 to 32767 moves the cursor by exactly `k` lines, and nothing of the next line is executed on the way (the
step has no delay slot). -/
def Obligations.TakenBranchMovesByTheOffset : Prop :=
  (∀ imm : Imm, -32768 ≤ signed (sext16 imm) ∧ signed (sext16 imm) ≤ 32767) ∧
  (∀ k : Int, -32768 ≤ k → k ≤ 32767 → signed (sext16 (BitVec.ofInt 16 k)) = k) ∧
  (∀ s w i imm, s.status = .running → s.prog.fetch s.pc = some w → decode w = .op i → takenBranch s i = some imm →
    ∃ t, step s = .next t ∧ OnlyCursor s t (s.pc + signed (sext16 imm))) ∧
  (∀ s w rs rt imm, s.status = .running → s.prog.fetch s.pc = some w →
    decode w = .op (.beq rs rt imm) ∨ decode w = .op (.bne rs rt imm) →
    (∀ i, decode w = .op i → takenBranch s i = none) → ∃ t, step s = .next t ∧ OnlyCursor s t (s.pc + 1))

/-- R163: a branch accepts a target outside [0, N), and the run halts at the next step; in particular 0x1000FFFF at
line 0 ends the run there after two steps, at line -1. -/
def Obligations.BranchOutOfTheProgramHaltsNext : Prop :=
  (∀ s w i imm, s.status = .running → s.prog.fetch s.pc = some w → decode w = .op i → takenBranch s i = some imm →
    s.prog.inRange (s.pc + signed (sext16 imm)) = false →
    ∃ t, step s = .next t ∧ OnlyCursor s t (s.pc + signed (sext16 imm)) ∧
      step t = .next { t with status := .halted .endOfProgram }) ∧
  (∀ s : State, s.status = .running → s.pc = 0 → s.prog.fetch 0 = some 0x1000FFFF#32 →
    Sys2Proof.core.run 2 s = .next { s with pc := -1, status := .halted .endOfProgram })

/-- R164: a taken branch with offset 0 targets its own line and is executed again forever; 0x10000000 never
terminates. -/
def Obligations.BranchToItselfNeverEnds : Prop :=
  (∀ (s : State) w i, s.status = .running → s.prog.fetch s.pc = some w → decode w = .op i → takenBranch s i = some 0#16 →
    ∀ k, Sys2Proof.core.run k s = .next s) ∧
  (∀ s : State, s.status = .running → s.prog.fetch s.pc = some 0x10000000#32 → ∀ k, Sys2Proof.core.run k s = .next s)

/-! ## Immediate instructions -/

/-- R170: the encoding, the sum with the sign-extended immediate and the frame of `addi`. -/
def Obligations.AddiWritesTheSum : Prop :=
  (∀ w, w &&& 0xFC000000#32 = 0x20000000#32 ↔ decode w = .op (.addi (tField w) (sField w) (immField w))) ∧
  (∀ rt rs imm s, ∃ t, exec (.addi rt rs imm) s = .next t ∧
    OnlyRegister s t rt (s.read rs + BitVec.signExtend 32 imm))

/-- R171: the encoding, the signed comparison with the sign-extended immediate and the frame of `slti`. -/
def Obligations.SltiComparesWithTheSignExtension : Prop :=
  (∀ w, w &&& 0xFC000000#32 = 0x28000000#32 ↔ decode w = .op (.slti (tField w) (sField w) (immField w))) ∧
  (∀ rt rs imm s, ∃ t, exec (.slti rt rs imm) s = .next t ∧
    OnlyRegister s t rt (if (s.read rs).toInt < imm.toInt then 1#32 else 0#32))

/-- R172: the encoding, the bitwise and with the raw immediate, and the frame of `andi`. -/
def Obligations.AndiMasksWithTheRawImmediate : Prop :=
  (∀ w, w &&& 0xFC000000#32 = 0x30000000#32 ↔ decode w = .op (.andi (tField w) (sField w) (immField w))) ∧
  (∀ rt rs imm s, ∃ t, exec (.andi rt rs imm) s = .next t ∧
    OnlyRegister s t rt (0#16 ++ ((s.read rs).extractLsb' 0 16 &&& imm) : BitVec 32))

/-- R173: the encoding, the bitwise or with the raw immediate, and the frame of `ori`: bits 31 to 16 stay. -/
def Obligations.OriSetsTheRawImmediate : Prop :=
  (∀ w, w &&& 0xFC000000#32 = 0x34000000#32 ↔ decode w = .op (.ori (tField w) (sField w) (immField w))) ∧
  (∀ rt rs imm s, ∃ t, exec (.ori rt rs imm) s = .next t ∧
    OnlyRegister s t rt ((s.read rs).extractLsb' 16 16 ++ ((s.read rs).extractLsb' 0 16 ||| imm) : BitVec 32))

/-- R174: the encoding of `lui`, its result, the sign-extended immediate shifted left by 16, and its frame; the field
`s` is ignored. -/
def Obligations.LuiLoadsTheUpperHalf : Prop :=
  (∀ w, w &&& 0xFC000000#32 = 0x3C000000#32 ↔ decode w = .op (.lui (tField w) (immField w))) ∧
  (∀ rt imm s, ∃ t, exec (.lui rt imm) s = .next t ∧ OnlyRegister s t rt (BitVec.signExtend 32 imm <<< 16))

/-- The sign extension in `lui` has no effect on its result, which is `imm` in bits 31 to 16 and zeros in bits 15 to 0
(the spec's derived remark in R174), so `lui` followed by `ori` on the same register builds any 32-bit constant, and
touches nothing else but the cursor (from R173 and R174). -/
def Obligations.LuiThenOriBuildsAnyConstant : Prop :=
  (∀ imm, shlWord (sext16 imm) 16 = shlWord (zext16 imm) 16 ∧ shlWord (sext16 imm) 16 = (imm ++ 0#16 : BitVec 32)) ∧
  ∀ (rt : Reg) (c : Word) s, rt ≠ 0#5 →
    ∃ t u, exec (.lui rt (c.extractLsb' 16 16)) s = .next t ∧ exec (.ori rt rt (c.extractLsb' 0 16)) t = .next u ∧
      u.read rt = c ∧ (∀ r, r ≠ rt → u.read r = s.read r) ∧ u.pc = s.pc + 2 ∧ u.status = s.status ∧
      u.out = s.out ∧ u.prog = s.prog

/-! ## Multiply -/

/-- R190: the encoding of `mul`, its guard on the index `t`, the low 32 bits of the product, and its frame; with
`t = 0` nothing is written, with `d = 0` the write port discards the write. -/
def Obligations.MulWritesWhenTIsNotZero : Prop :=
  (∀ w, w &&& 0xFC000000#32 = 0x70000000#32 ↔ decode w = .op (.mul (dField w) (sField w) (tField w))) ∧
  (∀ d rs rt s, rt ≠ 0#5 → ∃ t, exec (.mul d rs rt) s = .next t ∧
    OnlyRegister s t d (BitVec.ofInt 32 ((s.read rs).toInt * (s.read rt).toInt))) ∧
  (∀ d rs s, ∃ t, exec (.mul d rs 0#5) s = .next t ∧ OnlyCursor s t (s.pc + 1))

/-- R191: every word with opcode field 0x70000000 is `mul`, whatever its low eleven bits; the MIPS32 word 0x70221802
and 0x70221800 are both `mul $3, $1, $2`. -/
def Obligations.EveryMulOpcodeWordIsMul : Prop :=
  (∀ w, opcodeField w = 0x70000000#32 → decode w = .op (.mul (dField w) (sField w) (tField w))) ∧
  (∀ w x : Word, opcodeField w = 0x70000000#32 → decode (w ^^^ (x &&& 0x7FF#32)) = decode w) ∧
  decode 0x70221802#32 = .op (.mul 3 1 2) ∧ decode 0x70221800#32 = .op (.mul 3 1 2)

/-! ## Observation -/

/-- R215: the dump has a line for exactly the non-zero registers, never for register 0, in ascending index order,
with the signed value, and a halted machine shows it as `$<index> = <value>`. -/
def Obligations.DumpListsTheNonZeroRegisters : Prop :=
  (∀ s k v, (k, v) ∈ dumpEntries s ↔
    k < 32 ∧ v ≠ 0 ∧ v = (s.read (BitVec.ofNat 5 k)).toInt) ∧
  (∀ s v, (0, v) ∉ dumpEntries s) ∧
  (∀ s, (dumpEntries s).Pairwise fun a b => a.1 < b.1) ∧
  (∀ s r, s.status = .halted r →
    registerDump s = some ((dumpEntries s).map fun e => "$" ++ toString e.1 ++ " = " ++ toString e.2))

/-- Every state that any admitted program reaches meets the invariant, however many steps it takes (R54 for the
program's size, R23, R28, R31, R200). -/
def Obligations.EveryReachedStateMeetsTheInvariant : Prop :=
  ∀ cfg listing k s, Reached cfg listing k s → Inv cfg s
end

