-- ==== Sys2Proof/Laws/State.lean ====
section
/-! SUPPORT. What each state operation does to each field: one lemma per field and operation. -/

namespace Sys2Proof.Machine

/-! ## advance -/
section Advance
variable (s : State)
@[simp] theorem advance_regs : s.advance.regs = s.regs := rfl
@[simp] theorem advance_pc : s.advance.pc = s.pc + 1 := rfl
@[simp] theorem advance_status : s.advance.status = s.status := rfl
@[simp] theorem advance_out : s.advance.out = s.out := rfl
@[simp] theorem advance_prog : s.advance.prog = s.prog := rfl
@[simp] theorem advance_read (r : Reg) : s.advance.read r = s.read r := rfl
end Advance

/-! ## branchBy -/
section BranchBy
variable (s : State) (imm : Imm)
@[simp] theorem branchBy_regs : (s.branchBy imm).regs = s.regs := rfl
@[simp] theorem branchBy_pc : (s.branchBy imm).pc = s.pc + lineDelta imm := rfl
@[simp] theorem branchBy_status : (s.branchBy imm).status = s.status := rfl
@[simp] theorem branchBy_out : (s.branchBy imm).out = s.out := rfl
@[simp] theorem branchBy_prog : (s.branchBy imm).prog = s.prog := rfl
@[simp] theorem branchBy_read (r : Reg) : (s.branchBy imm).read r = s.read r := rfl
end BranchBy

/-! ## emit -/
section Emit
variable (s : State) (e : Event)
@[simp] theorem emit_regs : (s.emit e).regs = s.regs := rfl
@[simp] theorem emit_pc : (s.emit e).pc = s.pc := rfl
@[simp] theorem emit_status : (s.emit e).status = s.status := rfl
@[simp] theorem emit_out : (s.emit e).out = s.out ++ [e] := rfl
@[simp] theorem emit_prog : (s.emit e).prog = s.prog := rfl
@[simp] theorem emit_read (r : Reg) : (s.emit e).read r = s.read r := rfl
end Emit

/-! ## terminate, halt, raiseDecodeFault -/
section Terminate
variable (s : State) (t : Status)
@[simp] theorem terminate_regs : (s.terminate t).regs = s.regs := rfl
@[simp] theorem terminate_pc : (s.terminate t).pc = s.pc := rfl
@[simp] theorem terminate_status : (s.terminate t).status = t := rfl
@[simp] theorem terminate_out : (s.terminate t).out = s.out := rfl
@[simp] theorem terminate_prog : (s.terminate t).prog = s.prog := rfl
@[simp] theorem terminate_read (r : Reg) : (s.terminate t).read r = s.read r := rfl
end Terminate

@[simp] theorem halt_eq_terminate (s : State) (r : HaltReason) : s.halt r = s.terminate (.halted r) := rfl
@[simp] theorem raiseDecodeFault_eq_terminate (s : State) (w : Word) :
    s.raiseDecodeFault w = s.terminate (.faulted w) := rfl

/-! ## write and read -/
section Write
variable (s : State) (d : Reg) (v : Word)
@[simp] theorem write_pc : (s.write d v).pc = s.pc := by unfold State.write; split <;> rfl
@[simp] theorem write_status : (s.write d v).status = s.status := by unfold State.write; split <;> rfl
@[simp] theorem write_out : (s.write d v).out = s.out := by unfold State.write; split <;> rfl
@[simp] theorem write_prog : (s.write d v).prog = s.prog := by unfold State.write; split <;> rfl
@[simp] theorem write_zero : s.write 0#5 v = s := rfl
@[simp] theorem read_zero : s.read 0#5 = 0#32 := rfl

/-- Through the read port: the value written, at the register written, unless that is register 0 (R22, R23). -/
theorem read_write (r : Reg) : (s.write d v).read r = if r = d ∧ d ≠ 0#5 then v else s.read r := by
  unfold State.write State.read
  by_cases hd : d = 0#5
  · simp [hd]
  by_cases hrd : r = d
  · subst hrd
    simp [hd]
  have hne : d.toNat ≠ r.toNat := fun h => hrd (BitVec.eq_of_toNat_eq h.symm)
  simp [hd, hrd, Vector.getElem_set_ne _ _ hne]

/-- The write port never touches entry 0 (R23). -/
@[simp] theorem write_entry_zero : (s.write d v).regs[0] = s.regs[0] := by
  unfold State.write
  split
  · rfl
  · rename_i hd
    have hne : d.toNat ≠ 0 := fun h => hd (BitVec.eq_of_toNat_eq (by simpa using h))
    simp [Vector.getElem_set_ne _ _ hne]
end Write

/-! ## reset and resetEvent -/
@[simp] theorem reset_pc : State.reset.pc = 0 := rfl
@[simp] theorem reset_status : State.reset.status = .running := rfl
@[simp] theorem reset_out : State.reset.out = [] := rfl
@[simp] theorem reset_prog : State.reset.prog = [] := rfl
theorem reset_read (r : Reg) : State.reset.read r = 0#32 := by
  unfold State.read State.reset
  split <;> simp

@[simp] theorem resetEvent_prog (s : State) : s.resetEvent.prog = s.prog := rfl
@[simp] theorem resetEvent_regs (s : State) : s.resetEvent.regs = State.reset.regs := rfl
@[simp] theorem resetEvent_pc (s : State) : s.resetEvent.pc = 0 := rfl
@[simp] theorem resetEvent_status (s : State) : s.resetEvent.status = .running := rfl
@[simp] theorem resetEvent_out (s : State) : s.resetEvent.out = [] := rfl

end Sys2Proof.Machine
end

