-- ==== Sys2Proof/Laws/Encoding.lean ====
section
/-! SUPPORT. The fields of a word laid out in each format, a word put together again from its fields, and what the
decoder's tests say about a word. -/

namespace Sys2Proof

/-! ## The dispatch keys as slices (R72, R73) -/

/-- The opcode field is `op6 << 26` (R72). -/
theorem opcodeField_eq_append (w : Word) : opcodeField w = (op6 w ++ 0#26 : BitVec 32) := by
  apply BitVec.eq_of_getLsbD_eq
  intro k hk
  simp only [opcodeField, op6, BitVec.getLsbD_and, BitVec.getLsbD_append, BitVec.getLsbD_extractLsb']
  interval_cases k <;> simp

/-- The key is bits 10 to 0 (R73). -/
theorem baseKey_eq_append (w : Word) : baseKey w = (0#21 ++ w.extractLsb' 0 11 : BitVec 32) := by
  apply BitVec.eq_of_getLsbD_eq
  intro k hk
  simp only [baseKey, BitVec.getLsbD_and, BitVec.getLsbD_append, BitVec.getLsbD_extractLsb']
  interval_cases k <;> simp

/-- `op6` of an opcode field put in place. -/
theorem op6_append_zero (o : BitVec 6) : op6 (o ++ 0#26 : BitVec 32) = o := by
  apply BitVec.eq_of_getLsbD_eq
  intro k hk
  simp only [op6, BitVec.getLsbD_append, BitVec.getLsbD_extractLsb']
  interval_cases k <;> simp

/-- A test on the opcode field is a test on `op6`. -/
theorem opcodeField_eq_iff (w : Word) (o : BitVec 6) : opcodeField w = (o ++ 0#26 : BitVec 32) ↔ op6 w = o := by
  rw [opcodeField_eq_append]
  refine ⟨fun h => ?_, fun h => by rw [h]⟩
  have h6 := congrArg op6 h
  rwa [op6_append_zero, op6_append_zero] at h6

/-- The key bits of a key put in place. -/
theorem extract_key_append (k : BitVec 11) : (0#21 ++ k : BitVec 32).extractLsb' 0 11 = k := by
  apply BitVec.eq_of_getLsbD_eq
  intro j hj
  simp only [BitVec.getLsbD_append, BitVec.getLsbD_extractLsb']
  interval_cases j <;> simp

/-- A test on the key is a test on bits 10 to 0. -/
theorem baseKey_eq_iff (w : Word) (k : BitVec 11) :
    baseKey w = (0#21 ++ k : BitVec 32) ↔ w.extractLsb' 0 11 = k := by
  rw [baseKey_eq_append]
  refine ⟨fun h => ?_, fun h => by rw [h]⟩
  have hk := congrArg (BitVec.extractLsb' 0 11) h
  rwa [extract_key_append, extract_key_append] at hk

/-! ## Format BASE (R74) -/
section Base
variable (s t d : Reg) (key : BitVec 11)

theorem opcodeField_wordBase : opcodeField (wordBase s t d key) = 0#32 := by
  apply BitVec.eq_of_getLsbD_eq
  intro k hk
  simp only [opcodeField, wordBase, BitVec.getLsbD_append, BitVec.getLsbD_and]
  interval_cases k <;> simp

theorem baseKey_wordBase : baseKey (wordBase s t d key) = (0#21 ++ key : BitVec 32) := by
  apply BitVec.eq_of_getLsbD_eq
  intro k hk
  simp only [baseKey, wordBase, BitVec.getLsbD_append, BitVec.getLsbD_and]
  interval_cases k <;> simp

theorem sField_wordBase : sField (wordBase s t d key) = s := by
  apply BitVec.eq_of_getLsbD_eq
  intro k hk
  simp only [sField, wordBase, BitVec.getLsbD_append, BitVec.getLsbD_extractLsb']
  interval_cases k <;> simp

theorem tField_wordBase : tField (wordBase s t d key) = t := by
  apply BitVec.eq_of_getLsbD_eq
  intro k hk
  simp only [tField, wordBase, BitVec.getLsbD_append, BitVec.getLsbD_extractLsb']
  interval_cases k <;> simp

theorem dField_wordBase : dField (wordBase s t d key) = d := by
  apply BitVec.eq_of_getLsbD_eq
  intro k hk
  simp only [dField, wordBase, BitVec.getLsbD_append, BitVec.getLsbD_extractLsb']
  interval_cases k <;> simp
end Base

/-! ## Formats EXT-I and EXT-R (R74) -/
section Ext
variable (o : BitVec 6) (s t d : Reg) (imm : Imm)

theorem opcodeField_wordExtI : opcodeField (wordExtI o s t imm) = (o ++ 0#26 : BitVec 32) := by
  apply BitVec.eq_of_getLsbD_eq
  intro k hk
  simp only [opcodeField, wordExtI, BitVec.getLsbD_append, BitVec.getLsbD_and]
  interval_cases k <;> simp

theorem sField_wordExtI : sField (wordExtI o s t imm) = s := by
  apply BitVec.eq_of_getLsbD_eq
  intro k hk
  simp only [sField, wordExtI, BitVec.getLsbD_append, BitVec.getLsbD_extractLsb']
  interval_cases k <;> simp

theorem tField_wordExtI : tField (wordExtI o s t imm) = t := by
  apply BitVec.eq_of_getLsbD_eq
  intro k hk
  simp only [tField, wordExtI, BitVec.getLsbD_append, BitVec.getLsbD_extractLsb']
  interval_cases k <;> simp

theorem immField_wordExtI : immField (wordExtI o s t imm) = imm := by
  apply BitVec.eq_of_getLsbD_eq
  intro k hk
  simp only [immField, wordExtI, BitVec.getLsbD_append, BitVec.getLsbD_extractLsb']
  interval_cases k <;> simp

/-- Format EXT-R is format EXT-I with `d` and eleven zeros in the immediate field. -/
theorem wordExtR_eq_wordExtI : wordExtR o s t d = wordExtI o s t (d ++ 0#11 : BitVec 16) := by
  apply BitVec.eq_of_getLsbD_eq
  intro k hk
  simp only [wordExtR, wordExtI, BitVec.getLsbD_append]
  interval_cases k <;> simp

/-- "`d` is bits 15 to 11 of `imm`" (R71). -/
theorem dField_wordExtR : dField (wordExtR o s t d) = d := by
  apply BitVec.eq_of_getLsbD_eq
  intro k hk
  simp only [dField, wordExtR, BitVec.getLsbD_append, BitVec.getLsbD_extractLsb']
  interval_cases k <;> simp
end Ext

/-! ## A word put together again from its fields -/

theorem wordBase_of_fields {w : Word} (h : opcodeField w = 0#32) :
    wordBase (sField w) (tField w) (dField w) (w.extractLsb' 0 11) = w := by
  apply BitVec.eq_of_getLsbD_eq
  intro k hk
  have hb := congrArg (BitVec.getLsbD · k) h
  simp only [opcodeField, wordBase, sField, tField, dField, BitVec.getLsbD_append, BitVec.getLsbD_and,
    BitVec.getLsbD_extractLsb'] at *
  interval_cases k <;> simp_all

theorem wordExtI_of_fields (w : Word) : wordExtI (op6 w) (sField w) (tField w) (immField w) = w := by
  apply BitVec.eq_of_getLsbD_eq
  intro k hk
  simp only [wordExtI, op6, sField, tField, immField, BitVec.getLsbD_append, BitVec.getLsbD_extractLsb']
  interval_cases k <;> simp

/-- Without the field `s`, which `lui` ignores (R79). -/
theorem wordExtI_of_fields_lui (w : Word) :
    wordExtI (op6 w) 0#5 (tField w) (immField w) = w &&& 0xFC1FFFFF#32 := by
  apply BitVec.eq_of_getLsbD_eq
  intro k hk
  simp only [wordExtI, op6, tField, immField, BitVec.getLsbD_append, BitVec.getLsbD_extractLsb',
    BitVec.getLsbD_and]
  interval_cases k <;> simp

/-- Without bits 10 to 0, which `mul` ignores (R79). -/
theorem wordExtR_of_fields (w : Word) :
    wordExtR (op6 w) (sField w) (tField w) (dField w) = w &&& 0xFFFFF800#32 := by
  apply BitVec.eq_of_getLsbD_eq
  intro k hk
  simp only [wordExtR, op6, sField, tField, dField, BitVec.getLsbD_append, BitVec.getLsbD_extractLsb',
    BitVec.getLsbD_and]
  interval_cases k <;> simp

/-! ## Match and mask (R76, R77) -/

/-- The mask of a base row tests the opcode field and the key. -/
theorem and_baseMask_eq_iff (w m : Word) (hm : m &&& 0x7FF#32 = m) :
    w &&& 0xFC0007FF#32 = m ↔ opcodeField w = 0#32 ∧ baseKey w = m := by
  have hor : w &&& 0xFC0007FF#32 = opcodeField w ||| baseKey w := by
    rw [opcodeField, baseKey, ← BitVec.and_or_distrib_left]
    rfl
  constructor
  · intro h
    have h1 : w &&& 0xFC0007FF#32 &&& 0xFC000000#32 = opcodeField w := by rw [BitVec.and_assoc]; rfl
    have h2 : w &&& 0xFC0007FF#32 &&& 0x7FF#32 = baseKey w := by rw [BitVec.and_assoc]; rfl
    rw [h] at h1 h2
    refine ⟨?_, by rw [← h2, hm]⟩
    rw [← h1, ← hm, BitVec.and_assoc]
    exact BitVec.and_zero
  · rintro ⟨h1, h2⟩
    rw [hor, h1, h2, BitVec.zero_or]

/-- The mask of the syscall class tests the opcode field and bits 3 and 2. -/
theorem isSyscallClass_iff (w : Word) :
    isSyscallClass w = true ↔ opcodeField w = 0#32 ∧ w &&& 0x0000000C#32 = 0x0000000C#32 := by
  simp [isSyscallClass, opcodeField]

theorem and_syscallMask_eq_iff (w : Word) :
    w &&& 0xFC00000C#32 = 0x0000000C#32 ↔ opcodeField w = 0#32 ∧ w &&& 0x0000000C#32 = 0x0000000C#32 := by
  have hor : w &&& 0xFC00000C#32 = opcodeField w ||| (w &&& 0x0000000C#32) := by
    rw [opcodeField, ← BitVec.and_or_distrib_left]
    rfl
  constructor
  · intro h
    have h1 : w &&& 0xFC00000C#32 &&& 0xFC000000#32 = opcodeField w := by rw [BitVec.and_assoc]; rfl
    have h2 : w &&& 0xFC00000C#32 &&& 0x0000000C#32 = w &&& 0x0000000C#32 := by rw [BitVec.and_assoc]; rfl
    rw [h] at h1 h2
    exact ⟨h1.symm, h2.symm⟩
  · rintro ⟨h1, h2⟩
    rw [hor, h1, h2]
    rfl

/-! ## The decoder's two groups -/

theorem decode_of_base {w : Word} (h : opcodeField w = 0#32) : decode w = decodeBase w := if_pos h

theorem decode_of_extended {w : Word} (h : opcodeField w ≠ 0#32) : decode w = decodeExtended w := if_neg h

theorem decodes_eq_false_iff (w : Word) : decodes w = false ↔ ∃ why, decode w = .invalid why := by
  unfold decodes
  cases decode w <;> simp

theorem decodes_iff (w : Word) : decodes w = true ↔ ∃ i, decode w = .op i := by
  unfold decodes
  cases decode w <;> simp

/-- Only the word 0x0000000C decodes as the syscall that dispatches (R140), and an alias keeps its word, which is of
the syscall class and another word (R141). -/
theorem decodeSyscallClass_cases (w : Word) :
    (w = 0x0000000C#32 ∧ decodeSyscallClass w = .syscall) ∨
    (w ≠ 0x0000000C#32 ∧ decodeSyscallClass w = .syscallAlias w) := by
  by_cases h : w = 0x0000000C#32
  · exact .inl ⟨h, if_pos h⟩
  · exact .inr ⟨h, if_neg h⟩

/-! ## Significant bits (R79) -/

/-- The three masks of R79. -/
theorem significantBits_cases (i : Instr) :
    Machine.significantBits i = 0xFFFFFFFF#32 ∨ Machine.significantBits i = 0xFC1FFFFF#32 ∨
    Machine.significantBits i = 0xFFFFF800#32 := by
  cases i <;> simp only [Machine.significantBits, true_or, or_true]

/-- A mask that holds the opcode bits leaves the opcode field alone. -/
theorem opcodeField_and (w m : Word) (hm : m &&& 0xFC000000#32 = 0xFC000000#32) :
    opcodeField (w &&& m) = opcodeField w := by
  rw [opcodeField, opcodeField, BitVec.and_assoc, hm]

/-- No instruction ignores an opcode bit. -/
theorem opcodeField_and_significantBits (w : Word) (i : Instr) :
    opcodeField (w &&& Machine.significantBits i) = opcodeField w :=
  opcodeField_and w _ (by rcases significantBits_cases i with h | h | h <;> rw [h] <;> rfl)

end Sys2Proof
end

