-- ==== Sys2Proof/Laws/Memory.lean ====
section
/-! SUPPORT. The program store: fetching, the range check, and that every memory operation keeps the store well
formed. -/

namespace Sys2Proof.Machine

theorem Memory.inRange_iff (m : Memory) (i : Int) : m.inRange i = true ↔ 0 ≤ i ∧ i < m.length := by
  simp [Memory.inRange]

theorem Memory.inRange_eq_false_iff (m : Memory) (i : Int) :
    m.inRange i = false ↔ i < 0 ∨ (m.length : Int) ≤ i := by
  rw [← Bool.not_eq_true, Memory.inRange_iff]
  omega

/-- A fetch answers a word exactly inside [0, N) (R52, R101). -/
theorem Memory.fetch_eq_none_iff (m : Memory) (i : Int) : m.fetch i = none ↔ m.inRange i = false := by
  unfold Memory.fetch
  split
  · rename_i h
    have := (m.inRange_iff i).1 h
    simp only [List.getElem?_eq_none_iff, h, Bool.true_eq_false, iff_false]
    omega
  · rename_i h
    simpa using h

theorem Memory.inRange_of_fetch {m : Memory} {i : Int} {w : Word} (h : m.fetch i = some w) : m.inRange i = true := by
  by_contra hr
  rw [(m.fetch_eq_none_iff i).2 (by simpa using hr)] at h
  cases h

/-- A fetched word is a word of the program. -/
theorem Memory.mem_of_fetch {m : Memory} {i : Int} {w : Word} (h : m.fetch i = some w) : w ∈ m := by
  have hr := Memory.inRange_of_fetch h
  simp only [Memory.fetch, hr, if_true] at h
  exact List.mem_of_getElem? h

/-- At a line number that is a natural number, a fetch is the list's element. -/
theorem Memory.fetch_natCast (m : Memory) (n : Nat) : m.fetch (n : Int) = m[n]? := by
  unfold Memory.fetch
  split
  · simp
  · rename_i h
    rw [m.inRange_iff] at h
    exact (List.getElem?_eq_none (by omega)).symm

theorem Memory.length_place (m : Memory) (n : Nat) (w : Word) : (m.place n w).length = max m.length (n + 1) := by
  induction m, n, w using Memory.place.induct with
  | case1 w => simp [Memory.place]
  | case2 n w ih => simp [Memory.place, ih]
  | case3 x m w => simp [Memory.place]
  | case4 x m n w ih => simp [Memory.place, ih]

theorem Memory.getElem?_place_self (m : Memory) (n : Nat) (w : Word) : (m.place n w)[n]? = some w := by
  induction m, n, w using Memory.place.induct with
  | case1 w => rfl
  | case2 n w ih => simpa [Memory.place] using ih
  | case3 x m w => rfl
  | case4 x m n w ih => simpa [Memory.place] using ih

theorem Memory.getElem?_place_of_ne (m : Memory) (n : Nat) (w : Word) (k : Nat) (hk : k ≠ n) (hl : k < m.length) :
    (m.place n w)[k]? = m[k]? := by
  induction m, n, w using Memory.place.induct generalizing k with
  | case1 w => simp at hl
  | case2 n w ih => simp at hl
  | case3 x m w => cases k <;> simp_all [Memory.place]
  | case4 x m n w ih =>
    cases k with
    | zero => rfl
    | succ k => simpa [Memory.place] using ih k (by omega) (by simpa using hl)

/-- The word placed is the word fetched. -/
theorem Memory.fetch_place_self (m : Memory) (n : Nat) (w : Word) : (m.place n w).fetch (n : Int) = some w := by
  rw [Memory.fetch_natCast, Memory.getElem?_place_self]

/-- Every other line of the program fetches as before. -/
theorem Memory.fetch_place_of_ne (m : Memory) (n : Nat) (w : Word) (j : Int) (hj : j ≠ n) (hr : m.inRange j = true) :
    (m.place n w).fetch j = m.fetch j := by
  obtain ⟨h0, hl⟩ := (m.inRange_iff j).1 hr
  lift j to Nat using h0
  rw [Memory.fetch_natCast, Memory.fetch_natCast, Memory.getElem?_place_of_ne _ _ _ _ (by omega) (by omega)]

/-- Placing a word inside the capacity keeps the store well formed. -/
theorem Memory.wf_place (cfg : Config) (m : Memory) (n : Nat) (w : Word) (h : m.wf cfg = true)
    (hn : n < cfg.capacity) : (m.place n w).wf cfg = true := by
  simp only [Memory.wf, decide_eq_true_eq, Memory.length_place] at *
  omega

theorem reset_prog_wf (cfg : Config) : State.reset.prog.wf cfg = true := by
  simp [Memory.wf]

end Sys2Proof.Machine
end

