-- ==== Sys2Proof/Laws/PerInstr.lean ====
section
/-! SUPPORT. One fact for every instruction as syntax: the opcode field of its word is the one its row of the opcode
table gives (R76, R77, R78). -/

/-- The opcode field of an instruction's row: 0 for the base group (R76, R77), the dispatch key of R78 for the
extended group. -/
def Sys2Proof.Laws.OpcodeOfWord.opcodeOf : Sys2Proof.Instr → Sys2Proof.Word
  | .add _ _ _ => 0x00000000#32
  | .sub _ _ _ => 0x00000000#32
  | .and _ _ _ => 0x00000000#32
  | .or _ _ _ => 0x00000000#32
  | .slt _ _ _ => 0x00000000#32
  | .syscall => 0x00000000#32
  | .syscallAlias _ => 0x00000000#32
  | .beq _ _ _ => 0x10000000#32
  | .bne _ _ _ => 0x14000000#32
  | .addi _ _ _ => 0x20000000#32
  | .slti _ _ _ => 0x28000000#32
  | .andi _ _ _ => 0x30000000#32
  | .ori _ _ _ => 0x34000000#32
  | .lui _ _ => 0x3C000000#32
  | .mul _ _ _ => 0x70000000#32

/-- The word of a well-formed instruction has its row's opcode field. -/
def Sys2Proof.Laws.OpcodeOfWord.Statement (i : Sys2Proof.Instr) : Prop :=
  i.wellFormed = true → Sys2Proof.opcodeField (Sys2Proof.encode i) = Sys2Proof.Laws.OpcodeOfWord.opcodeOf i

open Sys2Proof Sys2Proof.Laws.OpcodeOfWord

theorem Sys2Proof.Laws.OpcodeOfWord.add (d s t : Reg) : Statement (.add d s t) :=
  fun _ => opcodeField_wordBase s t d _
theorem Sys2Proof.Laws.OpcodeOfWord.sub (d s t : Reg) : Statement (.sub d s t) :=
  fun _ => opcodeField_wordBase s t d _
theorem Sys2Proof.Laws.OpcodeOfWord.and (d s t : Reg) : Statement (.and d s t) :=
  fun _ => opcodeField_wordBase s t d _
theorem Sys2Proof.Laws.OpcodeOfWord.or (d s t : Reg) : Statement (.or d s t) :=
  fun _ => opcodeField_wordBase s t d _
theorem Sys2Proof.Laws.OpcodeOfWord.slt (d s t : Reg) : Statement (.slt d s t) :=
  fun _ => opcodeField_wordBase s t d _
theorem Sys2Proof.Laws.OpcodeOfWord.syscall : Statement .syscall := fun _ => rfl
theorem Sys2Proof.Laws.OpcodeOfWord.syscallAlias (w : Word) : Statement (.syscallAlias w) := by
  intro h
  rw [Instr.wellFormed, Bool.and_eq_true, isSyscallClass_iff] at h
  exact h.1.1
theorem Sys2Proof.Laws.OpcodeOfWord.beq (s t : Reg) (imm : Imm) : Statement (.beq s t imm) :=
  fun _ => opcodeField_wordExtI _ s t imm
theorem Sys2Proof.Laws.OpcodeOfWord.bne (s t : Reg) (imm : Imm) : Statement (.bne s t imm) :=
  fun _ => opcodeField_wordExtI _ s t imm
theorem Sys2Proof.Laws.OpcodeOfWord.addi (t s : Reg) (imm : Imm) : Statement (.addi t s imm) :=
  fun _ => opcodeField_wordExtI _ s t imm
theorem Sys2Proof.Laws.OpcodeOfWord.slti (t s : Reg) (imm : Imm) : Statement (.slti t s imm) :=
  fun _ => opcodeField_wordExtI _ s t imm
theorem Sys2Proof.Laws.OpcodeOfWord.andi (t s : Reg) (imm : Imm) : Statement (.andi t s imm) :=
  fun _ => opcodeField_wordExtI _ s t imm
theorem Sys2Proof.Laws.OpcodeOfWord.ori (t s : Reg) (imm : Imm) : Statement (.ori t s imm) :=
  fun _ => opcodeField_wordExtI _ s t imm
theorem Sys2Proof.Laws.OpcodeOfWord.lui (t : Reg) (imm : Imm) : Statement (.lui t imm) :=
  fun _ => opcodeField_wordExtI _ _ t imm
theorem Sys2Proof.Laws.OpcodeOfWord.mul (d s t : Reg) : Statement (.mul d s t) := by
  intro _
  rw [encode, wordExtR_eq_wordExtI, opcodeField_wordExtI]
  rfl
end

