-- ==== Sys2Proof/Laws/Words.lean ====
section
/-! SUPPORT. The operators of R10 to R12 are the bit-vector operations. -/

namespace Sys2Proof.Machine

theorem bits32_signed (v : Word) : bits32 (signed v) = v := BitVec.ofInt_toInt

/-- R12's sum is the sum modulo 2^32. -/
theorem addWord_eq (a b : Word) : addWord a b = a + b := by
  simp [addWord, bits32, signed, BitVec.ofInt_add]

/-- R12's difference is the difference modulo 2^32. -/
theorem subWord_eq (a b : Word) : subWord a b = a - b := by
  apply BitVec.eq_of_toInt_eq
  simp [subWord, bits32, signed, BitVec.toInt_sub]

/-- R12's product is the low 32 bits of the product. -/
theorem mulWord_eq (a b : Word) : mulWord a b = a * b := by
  simp [mulWord, bits32, signed, BitVec.ofInt_mul]

/-- `slt` and `slti` write 1 exactly when the signed comparison holds. -/
theorem setLess_eq (a b : Word) : setLess a b = if a.toInt < b.toInt then 1#32 else 0#32 := by
  by_cases h : a.toInt < b.toInt <;> simp [setLess, boolWord, lessSigned, signed, h]

/-- Sign extension keeps the signed value (R11). -/
theorem signed_sext16 (imm : Imm) : signed (sext16 imm) = imm.toInt := by
  simp [signed, sext16, BitVec.toInt_signExtend_of_le]

/-- A branch offset lies in [-32768, 32767] (R162). -/
theorem lineDelta_bounds (imm : Imm) : -32768 ≤ lineDelta imm ∧ lineDelta imm ≤ 32767 := by
  have h1 := imm.le_toInt
  have h2 := imm.toInt_lt
  rw [lineDelta, signed_sext16]
  constructor <;> norm_num at * <;> omega

end Sys2Proof.Machine
end

