-- ==== Sys2Proof/Laws/Step.lean ====
section
/-! SUPPORT. What each shared operation, each meaning and a step can do, said once. -/

namespace Sys2Proof.Machine

/-! ## The shapes of a meaning -/

/-- A register-writing shape always answers, with one write through the port and the cursor at the next line. -/
theorem writeNext_spec (d : Reg) (v : Word) (s : State) :
    ∃ t, writeNext d v s = .next t ∧ OnlyRegister s t d v :=
  ⟨_, rfl, by simp [OnlyRegister, read_write]⟩

/-- Advancing moves the cursor alone. -/
theorem advance_spec (s : State) : OnlyCursor s s.advance (s.pc + 1) := by simp [OnlyCursor]

/-- A branch shape always answers, and moves the cursor alone. -/
theorem branchNext_spec (c : Bool) (imm : Imm) (s : State) :
    ∃ t, branchNext c imm s = .next t ∧ OnlyCursor s t (if c then s.pc + lineDelta imm else s.pc + 1) := by
  cases c
  · exact ⟨_, rfl, by simp [OnlyCursor]⟩
  · exact ⟨_, rfl, by simp [OnlyCursor]⟩

/-- The dispatcher on the syscall word, in the four cases of R140. -/
theorem execSyscall_cases (s : State) :
    (s.read 2#5 = 10#32 ∧ execSyscall s = .next (s.halt .exit)) ∨
    (s.read 2#5 = 1#32 ∧ execSyscall s = .next (s.emit (.printInt (s.read 4#5))).advance) ∨
    (s.read 2#5 = 11#32 ∧ execSyscall s = .next (s.emit (.printChar (s.read 4#5))).advance) ∨
    ((s.read 2#5 ≠ 1#32 ∧ s.read 2#5 ≠ 10#32 ∧ s.read 2#5 ≠ 11#32) ∧
      execSyscall s = .next ((s.emit (.unknownSyscall (s.read 2#5))).halt (.unknownSyscall (s.read 2#5)))) := by
  unfold execSyscall dispatch v0 a0 sysExit sysPrintInt sysPrintChar
  simp only [ne_eq, not_true_eq_false, if_false]
  by_cases h10 : s.read 2#5 = 10#32
  · simp [h10, syscallNext]
  by_cases h1 : s.read 2#5 = 1#32
  · simp [h1, syscallNext]
  by_cases h11 : s.read 2#5 = 11#32
  · simp [h11, syscallNext]
  · simp [h10, h1, h11, syscallNext]

/-- An alias only advances (R141). -/
theorem execSyscallAlias_eq {w : Word} (h : w ≠ 0x0000000C#32) (s : State) :
    execSyscallAlias w s = .next s.advance := by
  simp [execSyscallAlias, dispatch, syscallWord, h, syscallNext]

/-- The alias meaning on the syscall word itself is the dispatch: R75's `Syscall(w)` is one operation. -/
theorem execSyscallAlias_syscallWord (s : State) : execSyscallAlias 0x0000000C#32 s = execSyscall s := rfl

/-! ## What an instruction can do -/

/-- The effects an instruction can have on a state, with what must hold for each. -/
inductive Effect (s : State) : Instr → State → Prop where
  /-- One write to the instruction's target, then the next line. -/
  | write (i : Instr) (d : Reg) (v : Word) (h : writeTarget i = some d) : Effect s i (s.write d v).advance
  /-- Only the next line. -/
  | advance (i : Instr) : Effect s i s.advance
  /-- A taken branch. -/
  | branch (i : Instr) (imm : Imm) (h : takenBranch s i = some imm) : Effect s i (s.branchBy imm)
  /-- Syscall 1. -/
  | printInt (i : Instr) (hi : encode i = 0x0000000C#32) (h : s.read 2#5 = 1#32) :
      Effect s i (s.emit (.printInt (s.read 4#5))).advance
  /-- Syscall 11. -/
  | printChar (i : Instr) (hi : encode i = 0x0000000C#32) (h : s.read 2#5 = 11#32) :
      Effect s i (s.emit (.printChar (s.read 4#5))).advance
  /-- Syscall 10. -/
  | exit (i : Instr) (hi : encode i = 0x0000000C#32) (h : s.read 2#5 = 10#32) : Effect s i (s.halt .exit)
  /-- Any other selector. -/
  | unknown (i : Instr) (hi : encode i = 0x0000000C#32)
      (h : s.read 2#5 ≠ 1#32 ∧ s.read 2#5 ≠ 10#32 ∧ s.read 2#5 ≠ 11#32) :
      Effect s i ((s.emit (.unknownSyscall (s.read 2#5))).halt (.unknownSyscall (s.read 2#5)))

theorem execSyscall_effect (i : Instr) (hi : encode i = 0x0000000C#32) (s : State) :
    ∃ t, execSyscall s = .next t ∧ Effect s i t := by
  rcases execSyscall_cases s with ⟨h, e⟩ | ⟨h, e⟩ | ⟨h, e⟩ | ⟨h, e⟩
  · exact ⟨_, e, .exit i hi h⟩
  · exact ⟨_, e, .printInt i hi h⟩
  · exact ⟨_, e, .printChar i hi h⟩
  · exact ⟨_, e, .unknown i hi h⟩

/-- Every instruction answers a next state, by one of the effects (no instruction faults or refuses, R203). -/
theorem exec_effect (i : Instr) (s : State) : ∃ t, exec i s = .next t ∧ Effect s i t := by
  cases i with
  | syscall => exact execSyscall_effect _ rfl s
  | syscallAlias w =>
    by_cases h : w = 0x0000000C#32
    · subst h
      exact execSyscall_effect _ rfl s
    · exact ⟨_, execSyscallAlias_eq h s, .advance _⟩
  | beq rs rt imm =>
    by_cases h : s.read rs = s.read rt
    · exact ⟨_, by simp [exec, execBeq, branchNext, condEqual, h], .branch _ imm (by simp [takenBranch, h])⟩
    · exact ⟨_, by simp [exec, execBeq, branchNext, condEqual, h], .advance _⟩
  | bne rs rt imm =>
    by_cases h : s.read rs = s.read rt
    · exact ⟨_, by simp [exec, execBne, branchNext, condNotEqual, h], .advance _⟩
    · exact ⟨_, by simp [exec, execBne, branchNext, condNotEqual, h], .branch _ imm (by simp [takenBranch, h])⟩
  | mul d rs rt =>
    by_cases h : rt = 0#5
    · exact ⟨_, by simp [exec, execMul, h], .advance _⟩
    · exact ⟨_, by simp only [exec, execMul, ne_eq, h, not_false_eq_true, if_true]; rfl,
        .write _ d _ (by simp [writeTarget, h])⟩
  | add d _ _ => exact ⟨_, rfl, .write _ d _ rfl⟩
  | sub d _ _ => exact ⟨_, rfl, .write _ d _ rfl⟩
  | and d _ _ => exact ⟨_, rfl, .write _ d _ rfl⟩
  | or d _ _ => exact ⟨_, rfl, .write _ d _ rfl⟩
  | slt d _ _ => exact ⟨_, rfl, .write _ d _ rfl⟩
  | addi t _ _ => exact ⟨_, rfl, .write _ t _ rfl⟩
  | slti t _ _ => exact ⟨_, rfl, .write _ t _ rfl⟩
  | andi t _ _ => exact ⟨_, rfl, .write _ t _ rfl⟩
  | ori t _ _ => exact ⟨_, rfl, .write _ t _ rfl⟩
  | lui t _ => exact ⟨_, rfl, .write _ t _ rfl⟩

theorem effect_of_exec {i : Instr} {s t : State} (h : exec i s = .next t) : Effect s i t := by
  obtain ⟨t', h', e⟩ := exec_effect i s
  rw [h'] at h
  cases h
  exact e

/-! ## What a step can do -/

/-- A step from `Running` ends the program, faults on an illegal word, or runs the decoded instruction, in the order
of R205; it always answers. -/
theorem step_cases {s : State} (hr : s.status = .running) :
    (s.prog.inRange s.pc = false ∧ step s = .next (s.halt .endOfProgram)) ∨
    (∃ w, s.prog.fetch s.pc = some w ∧ decodes w = false ∧ step s = .next (s.raiseDecodeFault w)) ∨
    (∃ w i, s.prog.fetch s.pc = some w ∧ decode w = .op i ∧ step s = exec i s) := by
  unfold step
  rw [hr]
  cases hf : s.prog.fetch s.pc with
  | none => exact .inl ⟨(s.prog.fetch_eq_none_iff s.pc).1 hf, rfl⟩
  | some w =>
    cases hd : decode w with
    | invalid why => exact .inr (.inl ⟨w, rfl, by simp [decodes, hd], by simp [hd]⟩)
    | op i => exact .inr (.inr ⟨w, i, rfl, hd, by simp [hd]⟩)

/-- In a terminal status no step is enabled (R107). -/
theorem step_of_not_running {s : State} (h : s.status ≠ .running) : step s = .fault .notRunning := by
  unfold step
  split
  · contradiction
  · rfl
  · rfl

theorem running_of_step {s t : State} (h : step s = .next t) : s.status = .running := by
  by_contra hr
  rw [step_of_not_running hr] at h
  cases h

/-- The step on a fetched word that decodes. -/
theorem step_of_decode {s : State} {w : Word} {i : Instr} (hr : s.status = .running)
    (hf : s.prog.fetch s.pc = some w) (hd : decode w = .op i) : step s = exec i s := by
  unfold step
  simp [hr, hf, hd]

/-! ## What booting can do -/

theorem firstUndecodable_eq_none_iff (m : Memory) : firstUndecodable m = none ↔ ProgramDecodes m := by
  induction m with
  | nil => simp [firstUndecodable, ProgramDecodes]
  | cons w m ih => by_cases h : decodes w <;> simp_all [firstUndecodable, ProgramDecodes]

theorem firstUndecodable_some {m : Memory} {w : Word} (h : firstUndecodable m = some w) :
    w ∈ m ∧ decodes w = false := by
  induction m with
  | nil => cases h
  | cons x m ih =>
    unfold firstUndecodable at h
    split at h
    · exact ⟨List.mem_cons_of_mem _ (ih h).1, (ih h).2⟩
    · rename_i hx
      cases h
      exact ⟨List.mem_cons_self, by simpa using hx⟩

/-- What `boot` answers when it starts a run: the reset state with the listing loaded, which fits, and which decodes
when it was to be validated. -/
theorem boot_next {cfg : Config} {listing : Memory} {s : State} (h : boot cfg listing = .next s) :
    s = { State.reset with prog := listing } ∧ listing.wf cfg = true ∧
    (cfg.preloadValidate = true → ProgramDecodes listing) := by
  unfold boot at h
  split at h
  · cases h
  · rename_i hwf
    have hwf' : listing.wf cfg = true := by simpa using hwf
    split at h
    · split at h
      · cases h
      · rename_i hn
        cases h
        exact ⟨rfl, hwf', fun _ => (firstUndecodable_eq_none_iff _).1 hn⟩
    · rename_i hp
      cases h
      exact ⟨rfl, hwf', fun hp' => absurd hp' hp⟩

/-! ## Runs -/

theorem run_zero (s : State) : Sys2Proof.core.run 0 s = .next s := rfl

theorem run_succ_of_step {k : Nat} {s t : State} (h : step s = .next t) :
    Sys2Proof.core.run (k + 1) s = Sys2Proof.core.run k t := by
  have hc : Sys2Proof.core.step s = .next t := h
  simp only [Host.Core.run, hc]

/-- A run of `k + 1` steps that reaches a state is a step and then a run of `k` steps. -/
theorem run_succ_next {k : Nat} {s u : State} (h : Sys2Proof.core.run (k + 1) s = .next u) :
    ∃ t, step s = .next t ∧ Sys2Proof.core.run k t = .next u := by
  cases hs : step s with
  | next t => exact ⟨t, rfl, by rwa [run_succ_of_step hs] at h⟩
  | fault r =>
    have hc : Sys2Proof.core.step s = .fault r := hs
    simp only [Host.Core.run, hc] at h
    cases h
  | refused r =>
    have hc : Sys2Proof.core.step s = .refused r := hs
    simp only [Host.Core.run, hc] at h
    cases h

/-- A property that every step keeps holds at the end of every run that starts with it. -/
theorem run_induction {P : State → Prop} (hstep : ∀ s t, P s → step s = .next t → P t) :
    ∀ (k : Nat) (s t : State), P s → Sys2Proof.core.run k s = .next t → P t
  | 0, _, _, hs, h => by cases h; exact hs
  | k + 1, _, _, hs, h => by
    obtain ⟨u, hu, hk⟩ := run_succ_next h
    exact run_induction hstep k _ _ (hstep _ _ hs hu) hk

end Sys2Proof.Machine
end

