-- ==== Sys2Proof/Tests/Slice0.lean ====
section
/-! SUPPORT. Tests. Expected values come from spec/: the words and results of 95_test_vectors.md and the examples of
the rules, not from the model. The last part shows, for every statement with hypotheses, states and operands that meet
them. -/

namespace Sys2Proof.Tests

open Sys2Proof.Machine

/-! ## Helpers -/

/-- The reset state with some registers written and the cursor at a line. -/
def at' (pc : Int) (rs : List (Reg × Word)) : State :=
  { rs.foldl (fun s e => s.write e.1 e.2) State.reset with pc := pc }

/-- The reset state with some registers written. -/
def withRegs (rs : List (Reg × Word)) : State := at' 0 rs

/-- The reset state with a program. -/
def withProg (m : Memory) : State := { State.reset with prog := m }

/-- A register after an outcome. -/
def regOf (r : Reg) : Result → Option Word
  | .next s => some (s.read r)
  | .fault _ => none
  | .refused _ => none

/-- The cursor after an outcome. -/
def pcOf : Result → Option Int
  | .next s => some s.pc
  | .fault _ => none
  | .refused _ => none

/-- The status and the log after an outcome. -/
def endOf : Result → Option (Status × List Event)
  | .next s => some (s.status, s.out)
  | .fault _ => none
  | .refused _ => none

/-- One step on a word placed at the cursor. -/
def runWord (w : Nat) (s : State) : Result := step (s.withFetchWord 32 w)

/-! ## WellFormed refuses each ill-formed alias -/

theorem test_alias_wellFormed : (Instr.syscallAlias 0x0000000D#32).wellFormed = true := by decide
/-- The opcode field is not zero. -/
theorem test_alias_opcode_refused : (Instr.syscallAlias 0x1000000D#32).wellFormed = false := by decide
/-- Bits 3 and 2 are not both set. -/
theorem test_alias_bits_refused : (Instr.syscallAlias 0x00000008#32).wellFormed = false := by decide
/-- The word 0x0000000C is the dispatching syscall. -/
theorem test_alias_syscall_word_refused : (Instr.syscallAlias 0x0000000C#32).wellFormed = false := by decide

/-! ## Decoding: words written out from the formats of R74 and the keys of R76 and R78 -/

theorem test_decode_base :
    decode 0b000000_00001_00010_00011_00000100000#32 = .op (.add 3 1 2) ∧
    decode 0b000000_00001_00010_00011_00000100010#32 = .op (.sub 3 1 2) ∧
    decode 0b000000_00001_00010_00011_00000100100#32 = .op (.and 3 1 2) ∧
    decode 0b000000_00001_00010_00011_00000100101#32 = .op (.or 3 1 2) ∧
    decode 0b000000_00001_00010_00011_00000101010#32 = .op (.slt 3 1 2) := by decide

/-- 95_test_vectors.md 2.1: the syscall word and the aliases. -/
theorem test_decode_syscall :
    decode 0b000000_00000_00000_00000_00000001100#32 = .op .syscall ∧
    decode 0x0000000D#32 = .op (.syscallAlias 0x0000000D#32) ∧
    decode 0x0000080C#32 = .op (.syscallAlias 0x0000080C#32) ∧
    decode 0x03E0000C#32 = .op (.syscallAlias 0x03E0000C#32) ∧
    decode 0x0022186C#32 = .op (.syscallAlias 0x0022186C#32) := by decide

theorem test_decode_branch :
    decode 0b000100_00001_00010_1111111111111011#32 = .op (.beq 1 2 0xFFFB) ∧
    decode 0b000101_01000_00000_1111111111111110#32 = .op (.bne 8 0 0xFFFE) := by decide

theorem test_decode_immediate :
    decode 0b001000_00000_00001_0000000000000101#32 = .op (.addi 1 0 5) ∧
    decode 0b001010_01000_01001_0000000001100100#32 = .op (.slti 9 8 100) ∧
    decode 0b001100_01000_01100_1111111111111111#32 = .op (.andi 12 8 0xFFFF) ∧
    decode 0b001101_01000_01000_1000000000000001#32 = .op (.ori 8 8 0x8001) ∧
    decode 0b001111_11111_01000_0000000000000001#32 = .op (.lui 8 1) := by decide

theorem test_decode_mul :
    decode 0b011100_01010_01001_01011_00000000000#32 = .op (.mul 11 10 9) ∧
    decode 0x70221802#32 = .op (.mul 3 1 2) := by decide

/-- 95_test_vectors.md 2.1: words that are decode faults. -/
theorem test_decode_illegal :
    [0x00000000#32, 0x00000001#32, 0x00000004#32, 0x00000008#32, 0x0000000B#32, 0x00000018#32, 0x00000021#32,
     0x00000023#32, 0x00000026#32, 0x00000027#32, 0x0000002B#32, 0x00221860#32, 0x002218A0#32, 0x03E00008#32,
     0x04000000#32, 0x08000000#32, 0x24000000#32, 0x8C000000#32, 0x7C000000#32, 0xFC000000#32].all
      (fun w => !decodes w) = true := by decide

/-- R91: `add $3, $1, $2` is 0x00221820; the bne and mul words of 95_test_vectors.md. -/
theorem test_encode :
    encode (.add 3 1 2) = 0x00221820#32 ∧ encode (.bne 8 0 0xFFFE) = 0x1500FFFE#32 ∧
    encode (.mul 11 10 10) = 0x714A5800#32 ∧ encode (.slti 9 8 0x8000) = 0x29098000#32 := by decide

theorem test_mnemonic : mnemonicOf 0x00221820#32 = some "add" ∧ mnemonicOf 0x0000000F#32 = some "syscall" ∧
    mnemonicOf 0x00000000#32 = none := by decide

/-- MnemonicOutputIsOneOfFourteen, MnemonicFollowsMatchAndMask: words whose ignored bits are not 0 (R79), `lui` with
field `s` 31 and `mul` with bits 10 to 0 all 1. -/
theorem test_mnemonic_ignored_bits : mnemonicOf 0x3FE80001#32 = some "lui" ∧ mnemonicOf 0x71465FFF#32 = some "mul" := by
  decide

/-! ## Instructions (95_test_vectors.md 2.3 to 2.7) -/

theorem test_add_wraps :
    regOf 3 (runWord 0x00221820 (withRegs [(1, 0x7FFFFFFF#32), (2, 1#32)])) = some 0x80000000#32 := by decide
/-- `add $1, $1, $1` reads the old value. -/
theorem test_add_same_register : regOf 1 (runWord 0x00210820 (withRegs [(1, 3#32)])) = some 6#32 := by decide
theorem test_sub_borrows :
    regOf 3 (runWord 0x00221822 (withRegs [(1, 2#32), (2, 3#32)])) = some 0xFFFFFFFF#32 := by decide
theorem test_sub_negates_minimum :
    regOf 3 (runWord 0x00021822 (withRegs [(2, 0x80000000#32)])) = some 0x80000000#32 := by decide
theorem test_and :
    regOf 3 (runWord 0x00221824 (withRegs [(1, 0xF0F0F0F0#32), (2, 0xFF00FF00#32)])) = some 0xF000F000#32 := by decide
theorem test_or :
    regOf 3 (runWord 0x00221825 (withRegs [(1, 0xF0F0F0F0#32), (2, 0x0F0F0F0F#32)])) = some 0xFFFFFFFF#32 := by decide
theorem test_slt_signed :
    regOf 3 (runWord 0x0022182A (withRegs [(1, 0xFFFFFFFF#32), (2, 1#32)])) = some 1#32 := by decide
theorem test_slt_signed_reversed :
    regOf 3 (runWord 0x0022182A (withRegs [(1, 1#32), (2, 0xFFFFFFFF#32)])) = some 0#32 := by decide
theorem test_syscall_print :
    endOf (runWord 0x0000000C (withRegs [(2, 1#32), (4, 65#32)])) = some (.running, [.printInt 65#32]) := by decide
theorem test_syscall_whole_selector :
    endOf (runWord 0x0000000C (withRegs [(2, 0x0000010A#32)])) =
      some (.halted (.unknownSyscall 266#32), [.unknownSyscall 266#32]) := by decide
theorem test_syscall_alias_never_halts :
    endOf (runWord 0x0000000D (withRegs [(2, 10#32)])) = some (.running, []) ∧
    pcOf (runWord 0x0000000D (withRegs [(2, 10#32)])) = some 1 := by decide
theorem test_beq_backward :
    pcOf (runWord 0x1022FFFB (at' 10 [(1, 7#32), (2, 7#32)])) = some 5 ∧
    pcOf (runWord 0x1022FFFB (at' 10 [(1, 7#32), (2, 8#32)])) = some 11 := by decide
theorem test_beq_extreme_offsets :
    pcOf (runWord 0x10008000 (at' 10 [])) = some (-32758) ∧ pcOf (runWord 0x10007FFF (at' 10 [])) = some 32777 := by
  decide
theorem test_bne :
    pcOf (runWord 0x1422FFFD (at' 10 [(1, 1#32), (2, 2#32)])) = some 7 ∧
    pcOf (runWord 0x1422FFFD (at' 10 [(1, 2#32), (2, 2#32)])) = some 11 := by decide
theorem test_addi_negative : regOf 1 (runWord 0x2021FFFF (withRegs [(1, 5#32)])) = some 4#32 := by decide
theorem test_addi_to_zero_register : regOf 0 (runWord 0x20200001 (withRegs [(1, 9#32)])) = some 0#32 := by decide
/-- Depends on C1; the rejected reading gives 1. -/
theorem test_slti_sign_extends : regOf 9 (runWord 0x29098000 (withRegs [(8, 5#32)])) = some 0#32 := by decide
theorem test_slti_negative : regOf 9 (runWord 0x2909FFFF (withRegs [(8, 0xFFFFFFFE#32)])) = some 1#32 := by decide
theorem test_andi_zero_extends :
    regOf 12 (runWord 0x310C8000 (withRegs [(8, 0xFFFFFFFF#32)])) = some 0x00008000#32 := by decide
theorem test_ori : regOf 8 (runWord 0x35088001 (withRegs [(8, 0x12340000#32)])) = some 0x12348001#32 := by decide
theorem test_lui : regOf 8 (runWord 0x3C088000 State.reset) = some 0x80000000#32 := by decide
theorem test_lui_ignores_s : regOf 8 (runWord 0x3FE80001 (withRegs [(31, 5#32)])) = some 0x00010000#32 := by decide
theorem test_mul_signed :
    regOf 3 (runWord 0x70221800 (withRegs [(1, 0xFFFFFFFD#32), (2, 7#32)])) = some 0xFFFFFFEB#32 := by decide
theorem test_mul_guard :
    regOf 11 (runWord 0x71405800 (withRegs [(10, 7#32), (11, 49#32)])) = some 49#32 := by decide

/-! ## Engine (95_test_vectors.md 2.8) -/

theorem test_empty_program_halts : endOf (step State.reset) = some (.halted .endOfProgram, []) := by decide
theorem test_decode_fault :
    endOf (step (withProg [0xFFFFFFFF#32])) = some (.faulted 0xFFFFFFFF#32, []) ∧
    pcOf (step (withProg [0xFFFFFFFF#32])) = some 0 := by decide
theorem test_fetch_word_is_kept_at_the_line :
    ((at' 2 []).withFetchWord 32 0x20010005).prog = [0#32, 0#32, 0x20010005#32] := by decide

/-! ## Observation -/

theorem test_text :
    Event.text { preloadValidate := false, charRender := fun _ => "?", diagnostic := fun _ => "!" }
      (.printInt 0xFFFFFFFB#32) = "-5" ∧
    Event.text { preloadValidate := false, charRender := fun _ => "?", diagnostic := fun _ => "!" }
      (.printChar 65#32) = "A" ∧
    Event.text { preloadValidate := false, charRender := fun _ => "?", diagnostic := fun _ => "!" }
      (.printChar 300#32) = "?" := by decide
theorem test_dump :
    registerDump { withRegs [(8, 0x80000001#32), (2, 99#32)] with status := .halted .exit } =
      some ["$2 = 99", "$8 = -2147483647"] := by decide
theorem test_trace :
    traceLine 4 0x1500FFFE#32 = some "4: bne $8, $0, -2" ∧
    traceLine 1 0x35088001#32 = some "1: ori $8, $8, 0x8001" ∧
    traceLine 9 0x0000000C#32 = some "9: syscall" := by decide

/-! ## Witnesses: the hypotheses of the statements can be met -/

/-- A configuration with room for one word. -/
def cfg1 (validate : Bool) : Config :=
  { capacity := 1, preloadValidate := validate, charRender := fun _ => "", diagnostic := fun _ => "" }

theorem witness_resetForgets : (withRegs [(3, 5#32)]).prog = State.reset.prog := by decide

/-- BootRefusesOverlongListings: one word over capacity; a listing that just fits and decodes. -/
theorem witness_boot :
    (cfg1 true).capacity < [0x0000000C#32, 0x0000000C#32].length ∧
    ([0x0000000C#32] : Memory).length ≤ (cfg1 true).capacity ∧ ProgramDecodes [0x0000000C#32] :=
  ⟨by decide, by decide, (firstUndecodable_eq_none_iff _).1 rfl⟩

/-- PreloadValidationGuardsTheRun: each clause. -/
theorem witness_preload :
    ((cfg1 false).preloadValidate = false ∧ ([0#32] : Memory).length ≤ (cfg1 false).capacity) ∧
    ((withProg [0#32]).status = .running ∧
      step (withProg [0#32]) = .next ((withProg [0#32]).raiseDecodeFault 0#32) ∧
      ((withProg [0#32]).raiseDecodeFault 0#32).status = .faulted 0#32) ∧
    ((cfg1 true).preloadValidate = true ∧ ([0#32] : Memory).length ≤ (cfg1 true).capacity ∧
      ¬ ProgramDecodes [0#32]) ∧
    ((cfg1 true).capacity = (cfg1 false).capacity ∧ ProgramDecodes [0x0000000C#32]) := by
  refine ⟨by decide, ⟨rfl, rfl, rfl⟩, ⟨rfl, by decide, ?_⟩, rfl, (firstUndecodable_eq_none_iff _).1 rfl⟩
  rw [← firstUndecodable_eq_none_iff]
  decide

/-- SignAndZeroExtension: both ranges at their boundary. -/
theorem witness_signExtension : (0x7FFF#16).toNat < 0x8000 ∧ 0x8000 ≤ (0x8000#16).toNat := by decide

/-- OperatorsOnPatterns: bit 31 is a bit of a word. -/
theorem witness_operators : (31 : Nat) < 32 := by decide

/-- A machine about to run `addi $1, $0, 5`, and the state it reaches. -/
def addiState : State := withProg [0x20010005#32]

/-- WritePortAndZeroRegister, ProgramIsImmutable, OutputLogOnlyGrows: a step that answers, and a run of one step. -/
theorem witness_step :
    step addiState = .next (addiState.write 1 5#32).advance ∧
    Sys2Proof.core.run 1 addiState = .next (addiState.write 1 5#32).advance := ⟨rfl, rfl⟩

/-- RegisterUseTable: an instruction that answers, a register it does not write, and another state that agrees on what
it reads and differs elsewhere. -/
theorem witness_registerUse :
    exec (.addi 1 2 5) (withRegs [(2, 7#32)]) = .next ((withRegs [(2, 7#32)]).write 1 12#32).advance ∧
    writeTarget (.addi 1 2 5) ≠ some 2 ∧ (Instr.addi 1 2 5).wellFormed = true ∧
    (∀ r ∈ readSet (withRegs [(2, 7#32)]) (.addi 1 2 5),
      (withRegs [(2, 7#32), (9, 1#32)]).read r = (withRegs [(2, 7#32)]).read r) := by
  refine ⟨rfl, by decide, rfl, ?_⟩
  decide

/-- DecodeOfEncodeIsTheInstruction: a well-formed alias. -/
theorem witness_wellFormed : (Instr.syscallAlias 0x0000002C#32).wellFormed = true := by decide

/-- OnlyIgnoredBitsAreLost: two words of `lui` that differ in the field `s`. -/
theorem witness_ignoredBits :
    decode 0x3FE80001#32 = .op (.lui 8 1) ∧ 0x3C080001#32 &&& significantBits (.lui 8 1) = encode (.lui 8 1) := by
  decide

/-- SyscallClassIsTheBitTest, SyscallAliasDoesNothing, MnemonicOutputIsOneOfFourteen, MnemonicFollowsMatchAndMask: a
word of the class that is no syscall word. -/
theorem witness_syscallClass :
    0x0022186C#32 &&& 0xFC00000C#32 = 0x0000000C#32 ∧ 0x0022186C#32 ≠ 0x0000000C#32 ∧
    mnemonicOf 0x0022186C#32 = some "syscall" := by decide

/-- IllegalSpaceIsExact, DecodeFaultIsExactAndPrecise: an illegal word about to be fetched, and the step it makes. -/
theorem witness_illegal :
    (withProg [0x03E00008#32]).status = .running ∧
    (withProg [0x03E00008#32]).prog.fetch (withProg [0x03E00008#32]).pc = some 0x03E00008#32 ∧
    decode 0x03E00008#32 = .invalid .unrecognizedBase ∧
    step (withProg [0x03E00008#32]) = .next ((withProg [0x03E00008#32]).raiseDecodeFault 0x03E00008#32) ∧
    ((withProg [0x03E00008#32]).raiseDecodeFault 0x03E00008#32).status = .faulted 0x03E00008#32 :=
  ⟨rfl, by decide, by decide, rfl, rfl⟩

/-- StepRunsTheDecodedInstruction, and PlacedWordRunsNext at line 1 of a program of two words, where another line is
kept. -/
theorem witness_decodedStep :
    addiState.status = .running ∧ addiState.prog.fetch addiState.pc = some 0x20010005#32 ∧
    decode 0x20010005#32 = .op (.addi 1 0 5) ∧
    (let s := { withProg [0x0000000C#32, 0x0000000D#32] with pc := 1 }
     0 ≤ s.pc ∧ (0 : Int) ≠ (s.withFetchWord 32 (0x20010005#32).toNat).pc ∧ s.prog.inRange 0 = true) := by decide

/-- CursorOutsideTheProgramHalts: both sides at their boundary, -1 and N. -/
theorem witness_outside :
    ({ addiState with pc := -1 }).status = .running ∧ ({ addiState with pc := -1 } : State).pc < 0 ∧
    ({ addiState with pc := 1 } : State).status = .running ∧
    (({ addiState with pc := 1 } : State).prog.length : Int) ≤ ({ addiState with pc := 1 } : State).pc := by decide

/-- StepIsEnabledExactlyWhileRunning: a terminal status. -/
theorem witness_terminal : (addiState.halt .exit).status ≠ .running := by decide

/-- CursorChangesOnlyThreeWays: a step of each kind, and a meaning that answers. -/
theorem witness_cursor :
    step State.reset = .next (State.reset.halt .endOfProgram) ∧
    step addiState = .next (addiState.write 1 5#32).advance ∧
    step (withProg [0x10000001#32]) = .next ((withProg [0x10000001#32]).branchBy 1) ∧
    exec .syscall (withRegs [(2, 10#32)]) = .next ((withRegs [(2, 10#32)]).halt .exit) := ⟨rfl, rfl, rfl, rfl⟩

/-- EveryEndingIsPrecise: each of the four endings. -/
theorem witness_endings :
    step State.reset = .next (State.reset.halt .endOfProgram) ∧
    step (withProg [0#32]) = .next ((withProg [0#32]).raiseDecodeFault 0#32) ∧
    step ((withRegs [(2, 10#32)]).withFetchWord 32 0xC) =
      .next (((withRegs [(2, 10#32)]).withFetchWord 32 0xC).halt .exit) ∧
    step ((withRegs [(2, 99#32)]).withFetchWord 32 0xC) =
      .next ((((withRegs [(2, 99#32)]).withFetchWord 32 0xC).emit (.unknownSyscall 99#32)).halt
        (.unknownSyscall 99#32)) := ⟨rfl, rfl, rfl, rfl⟩

/-- StepSeesOnlyTheFetchedWord: two machines that differ in the log and in another line of the program. -/
theorem witness_sameFetchedWord :
    let s := withProg [0x20010005#32, 0x0000000C#32]
    let s' := { withProg [0x20010005#32] with out := [.printInt 1#32] }
    s'.regs = s.regs ∧ s'.pc = s.pc ∧ s'.status = s.status ∧ s'.prog.fetch s.pc = s.prog.fetch s.pc ∧
    step s = .next (s.write 1 5#32).advance := ⟨rfl, rfl, rfl, by decide, rfl⟩

/-- CursorStaysBounded: a booted state, both bounds met exactly, and a step from within. -/
theorem witness_bounds :
    boot (cfg1 true) [0x0000000C#32] = .next (withProg [0x0000000C#32]) ∧
    CursorBounded { addiState with pc := -32768 } ∧ CursorBounded { addiState with pc := 32767 } ∧
    addiState.prog.length ≤ 2 ^ 31 - 32768 ∧ CursorBounded addiState ∧
    step addiState = .next (addiState.write 1 5#32).advance := by
  refine ⟨rfl, ?_, ?_, by decide, ?_, rfl⟩ <;> unfold CursorBounded <;> decide

/-- EveryStepKeepsTheInvariant: a state that meets it and steps; StartMeetsTheInvariant: boot answers. -/
theorem witness_invariant :
    Inv (cfg1 true) addiState ∧ step addiState = .next (addiState.write 1 5#32).advance ∧
    boot (cfg1 true) [0x20010005#32] = .next addiState := by
  refine ⟨⟨rfl, rfl, ?_, ?_⟩, rfl, rfl⟩
  · unfold CursorBounded; decide
  · exact fun v hv => by simp [addiState, withProg] at hv

/-- DecodedProgramsNeverFault, EveryReachedStateMeetsTheInvariant: a validated program and a state it reaches. -/
theorem witness_reached :
    (cfg1 true).preloadValidate = true ∧ Reached (cfg1 true) [0x20010005#32] 1 (addiState.write 1 5#32).advance ∧
    ProgramDecodes addiState.prog ∧ NotFaulted addiState ∧
    exec (.addi 1 0 5) addiState = .next (addiState.write 1 5#32).advance :=
  ⟨rfl, ⟨addiState, rfl, rfl⟩, (firstUndecodable_eq_none_iff _).1 rfl, fun w => by simp [addiState, withProg], rfl⟩

/-- SyscallTenExits, SyscallOnePrintsTheInteger, SyscallElevenPrintsTheCharacter, UnknownSyscallHalts: each selector,
the unknown one beside 10. -/
theorem witness_selectors :
    (withRegs [(2, 10#32)]).read 2#5 = 10#32 ∧ (withRegs [(2, 1#32)]).read 2#5 = 1#32 ∧
    (withRegs [(2, 11#32)]).read 2#5 = 11#32 ∧ (withRegs [(2, 9#32)]).read 2#5 ∉ [1#32, 10#32, 11#32] := by decide

/-- SyscallClassNeverWritesARegister: an alias word fetched, and its step. -/
theorem witness_aliasStep :
    (withProg [0x0000000D#32]).status = .running ∧
    (withProg [0x0000000D#32]).prog.fetch (withProg [0x0000000D#32]).pc = some 0x0000000D#32 ∧
    0x0000000D#32 &&& 0xFC00000C#32 = 0x0000000C#32 ∧
    step (withProg [0x0000000D#32]) = .next (withProg [0x0000000D#32]).advance := ⟨rfl, by decide, by decide, rfl⟩

/-- TakenBranchMovesByTheOffset, BranchOutOfTheProgramHaltsNext: the extreme offsets, a taken branch to line -1, and a
branch that is not taken. -/
theorem witness_branches :
    ((-32768 : Int) ≤ -32768 ∧ (32767 : Int) ≤ 32767) ∧
    (let s := withProg [0x1000FFFF#32]
     s.status = .running ∧ s.pc = 0 ∧ s.prog.fetch s.pc = some 0x1000FFFF#32 ∧
     decode 0x1000FFFF#32 = .op (.beq 0 0 0xFFFF) ∧ takenBranch s (.beq 0 0 0xFFFF) = some 0xFFFF ∧
     s.prog.inRange (s.pc + signed (sext16 0xFFFF)) = false) ∧
    (let s := withProg [0x14210004#32]
     s.status = .running ∧ s.prog.fetch s.pc = some 0x14210004#32 ∧ decode 0x14210004#32 = .op (.bne 1 1 4) ∧
     takenBranch s (.bne 1 1 4) = none) := by decide

/-- BranchToItselfNeverEnds: `beq $0, $0, 0` fetched. -/
theorem witness_selfBranch :
    let s := withProg [0x10000000#32]
    s.status = .running ∧ s.prog.fetch s.pc = some 0x10000000#32 ∧ decode 0x10000000#32 = .op (.beq 0 0 0) ∧
    takenBranch s (.beq 0 0 0) = some 0#16 := by decide

/-- LuiThenOriBuildsAnyConstant, MulWritesWhenTIsNotZero: a register index other than 0. -/
theorem witness_nonzeroIndex : (31#5 : Reg) ≠ 0#5 := by decide

/-- EveryMulOpcodeWordIsMul: a word of the opcode. -/
theorem witness_mulOpcode : opcodeField 0x70221802#32 = 0x70000000#32 := by decide

end Sys2Proof.Tests
end

section
/-! PROOF. The widenings of R11 and the operators of R12 (00_scope.md). -/

namespace Sys2Proof.Machine

/-- R10: `unsigned` of `bits32 n` is `n` modulo 2^32. -/
theorem unsigned_bits32 (n : Int) : (unsigned (bits32 n) : Int) = n % 2 ^ 32 := by
  have hmod : (0 : Int) ≤ n % 2 ^ 32 := Int.emod_nonneg n (by decide)
  simpa [unsigned, bits32, BitVec.toNat_ofInt] using hmod

/-- Bit `k` of `sext_16(v)`: the bit of `v` in the low half, `v[15]` in the high half. -/
theorem getLsbD_sext16 (v : Imm) {k : Nat} (hk : k < 32) :
    (sext16 v).getLsbD k = if k < 16 then v.getLsbD k else v.getLsbD 15 := by
  rw [sext16, BitVec.getLsbD_signExtend, BitVec.msb_eq_getLsbD_last]
  simp [hk]

/-- Bit `k` of `zext_16(v)`: the bit of `v`, which is 0 from bit 16 up. -/
theorem getLsbD_zext16 (v : Imm) {k : Nat} (hk : k < 32) : (zext16 v).getLsbD k = v.getLsbD k := by
  simp [zext16, hk]

/-- A word that agrees with `v` on bits 0 to 15 has `v` as its low half. -/
theorem extractLsb'_eq_of_getLsbD {w : Word} {v : Imm} (h : ∀ k, k < 16 → w.getLsbD k = v.getLsbD k) :
    w.extractLsb' 0 16 = v := by
  apply BitVec.eq_of_getLsbD_eq
  intro k hk
  simp [hk, h k hk]

/-- Settles O5: the values come from the signed value of `v`, the halves from the bits of the two widenings. -/
theorem signAndZeroExtension : Obligations.SignAndZeroExtension := by
  unfold Obligations.SignAndZeroExtension
  intro v
  have hval : signed (sext16 v) = if 2 * v.toNat < 2 ^ 16 then (v.toNat : Int) else v.toNat - (2 ^ 16 : Nat) := by
    rw [signed_sext16, BitVec.toInt_eq_toNat_cond]
  refine ⟨fun hlow => ?_, fun hhigh => ?_, extractLsb'_eq_of_getLsbD fun k hk => ?_, fun k hk hk' => ?_,
    extractLsb'_eq_of_getLsbD fun k hk => ?_, fun k hk hk' => ?_⟩
  · rw [hval, if_pos (by omega)]
  · rw [hval, if_neg (by omega)]
    norm_num
  · rw [getLsbD_sext16 v (by omega), if_pos hk]
  · rw [getLsbD_sext16 v hk', if_neg (by omega)]
  · exact getLsbD_zext16 v (by omega)
  · rw [getLsbD_zext16 v hk', BitVec.getLsbD_of_ge v k hk]

/-- Bit `k` of `a << n`: 0 below `n`, and bit `k - n` of `a` from there. -/
theorem getLsbD_shlWord (a : Word) (n : Nat) {k : Nat} (hk : k < 32) :
    (shlWord a n).getLsbD k = (decide (n ≤ k) && a.getLsbD (k - n)) := by
  rw [shlWord, BitVec.getLsbD_shiftLeft, ← decide_not]
  simp only [hk, decide_true, Bool.true_and, Nat.not_lt]

/-- The comparison `<s` is that of the signed values. -/
theorem lessSigned_iff (a b : Word) : lessSigned a b = true ↔ signed a < signed b := by
  rw [lessSigned, decide_eq_true_iff]

/-- Settles O6: the three arithmetic operators are `bits32` of the exact result, the others are read off bit by bit. -/
theorem operatorsOnPatterns : Obligations.OperatorsOnPatterns := by
  unfold Obligations.OperatorsOnPatterns
  intro a b
  exact ⟨unsigned_bits32 _, unsigned_bits32 _, unsigned_bits32 _, fun k => BitVec.getLsbD_and, fun k => BitVec.getLsbD_or,
    fun n k hk => getLsbD_shlWord a n hk, lessSigned_iff a b, rfl, rfl⟩

end Sys2Proof.Machine
end

section
/-! PROOF. What the decoder answers for the syscall word, and what one step can do to a state (10_state.md). -/

namespace Sys2Proof.Machine

/-! ## The decoder and the syscall word (R75, R77, R140) -/

/-- A word that decodes is of the syscall class, split by `decodeSyscallClass`, or belongs to another row. -/
theorem decode_op_cases {w : Word} {i : Instr} (h : decode w = .op i) :
    (isSyscallClass w = true ∧ i = decodeSyscallClass w) ∨ (i.wellFormed = true ∧ i ≠ .syscall) := by
  by_cases hop : opcodeField w = 0#32
  · rw [decode_of_base hop, decodeBase] at h
    split_ifs at h with _ _ _ _ _ hbits <;> cases h
    pick_goal 6
    · exact .inl ⟨(isSyscallClass_iff w).2 ⟨hop, hbits⟩, rfl⟩
    all_goals exact .inr ⟨rfl, nofun⟩
  · rw [decode_of_extended hop, decodeExtended] at h
    split_ifs at h <;> cases h
    all_goals exact .inr ⟨rfl, nofun⟩

/-- Every instruction the decoder answers is well formed: a syscall-class word it keeps whole is not 0x0000000C. -/
theorem wellFormed_of_decode {w : Word} {i : Instr} (h : decode w = .op i) : i.wellFormed = true := by
  rcases decode_op_cases h with ⟨hclass, rfl⟩ | ⟨hwf, -⟩
  · rcases decodeSyscallClass_cases w with ⟨-, hi⟩ | ⟨hne, hi⟩
    · rw [hi]
      rfl
    · simp [hi, Instr.wellFormed, hclass, hne]
  · exact hwf

/-- Only the word 0x0000000C decodes to the instruction that dispatches. -/
theorem eq_syscallWord_of_decode {w : Word} (h : decode w = .op .syscall) : w = 0x0000000C#32 := by
  rcases decode_op_cases h with ⟨-, hi⟩ | ⟨-, hne⟩
  · rcases decodeSyscallClass_cases w with ⟨hw, -⟩ | ⟨-, halias⟩
    · exact hw
    · rw [halias] at hi
      cases hi
  · exact absurd rfl hne

/-- A word of the base format with another key is not the syscall word. -/
theorem wordBase_ne_syscallWord (s t d : Reg) {key : BitVec 11} (hkey : (0#21 ++ key : BitVec 32) ≠ 0x0000000C#32) :
    wordBase s t d key ≠ 0x0000000C#32 := by
  intro h
  have hk := congrArg baseKey h
  rw [baseKey_wordBase] at hk
  exact hkey hk

/-- A word of the extended format with an opcode other than 0 is not the syscall word. -/
theorem wordExtI_ne_syscallWord {o : BitVec 6} (s t : Reg) (imm : Imm) (ho : (o ++ 0#26 : BitVec 32) ≠ 0#32) :
    wordExtI o s t imm ≠ 0x0000000C#32 := by
  intro h
  have hop := congrArg opcodeField h
  rw [opcodeField_wordExtI] at hop
  exact ho hop

/-- Among the well-formed instructions, the one that dispatches alone has the syscall word. -/
theorem eq_syscall_of_encode {i : Instr} (hwf : i.wellFormed = true) (h : encode i = 0x0000000C#32) : i = .syscall := by
  cases i with
  | syscall => rfl
  | syscallAlias w =>
    have hw : w = 0x0000000C#32 := h
    rw [hw] at hwf
    exact absurd hwf (by decide)
  | add d s t => exact absurd h (wordBase_ne_syscallWord s t d (by decide))
  | sub d s t => exact absurd h (wordBase_ne_syscallWord s t d (by decide))
  | and d s t => exact absurd h (wordBase_ne_syscallWord s t d (by decide))
  | or d s t => exact absurd h (wordBase_ne_syscallWord s t d (by decide))
  | slt d s t => exact absurd h (wordBase_ne_syscallWord s t d (by decide))
  | beq s t imm => exact absurd h (wordExtI_ne_syscallWord s t imm (by decide))
  | bne s t imm => exact absurd h (wordExtI_ne_syscallWord s t imm (by decide))
  | addi t s imm => exact absurd h (wordExtI_ne_syscallWord s t imm (by decide))
  | slti t s imm => exact absurd h (wordExtI_ne_syscallWord s t imm (by decide))
  | andi t s imm => exact absurd h (wordExtI_ne_syscallWord s t imm (by decide))
  | ori t s imm => exact absurd h (wordExtI_ne_syscallWord s t imm (by decide))
  | lui t imm => exact absurd h (wordExtI_ne_syscallWord 0#5 t imm (by decide))
  | mul d s t =>
    rw [encode, wordExtR_eq_wordExtI] at h
    exact absurd h (wordExtI_ne_syscallWord s t _ (by decide))

/-- A word that decodes to an instruction with the syscall word is that word. -/
theorem eq_syscallWord_of_encode {w : Word} {i : Instr} (hd : decode w = .op i) (h : encode i = 0x0000000C#32) :
    w = 0x0000000C#32 := by
  rw [eq_syscall_of_encode (wellFormed_of_decode hd) h] at hd
  exact eq_syscallWord_of_decode hd

/-! ## The dispatcher and the register file -/

/-- The dispatcher on the syscall word, as one equation over the selector (R140). -/
theorem execSyscall_eq (s : State) : execSyscall s =
    if s.read 2#5 = 10#32 then .next (s.halt .exit)
    else if s.read 2#5 = 1#32 then .next (s.emit (.printInt (s.read 4#5))).advance
    else if s.read 2#5 = 11#32 then .next (s.emit (.printChar (s.read 4#5))).advance
    else .next ((s.emit (.unknownSyscall (s.read 2#5))).halt (.unknownSyscall (s.read 2#5))) := by
  rcases execSyscall_cases s with ⟨hv, e⟩ | ⟨hv, e⟩ | ⟨hv, e⟩ | ⟨⟨h1, h10, h11⟩, e⟩
  · simp [e, hv]
  · simp [e, hv]
  · simp [e, hv]
  · simp [e, h1, h10, h11]

/-- Above index 0 the read port shows the entry itself (R22). -/
theorem read_ofNat (s : State) {k : Nat} (hpos : 0 < k) (hk : k < 32) : s.read (BitVec.ofNat 5 k) = s.regs[k] := by
  have hmod : k % 32 = k := Nat.mod_eq_of_lt hk
  have hne : BitVec.ofNat 5 k ≠ 0#5 := by
    intro h
    have hzero : k = 0 := by simpa [hmod] using congrArg BitVec.toNat h
    omega
  simp [State.read, hne, hmod]

/-- The read port and entry 0, which it hides, determine the register file. -/
theorem regs_eq_of_read_eq {s t : State} (hread : ∀ r, t.read r = s.read r) (hzero : t.regs[0] = s.regs[0]) :
    t.regs = s.regs := by
  apply Vector.ext
  intro k hk
  rcases Nat.eq_zero_or_pos k with rfl | hpos
  · exact hzero
  · rw [← read_ofNat t hpos hk, ← read_ofNat s hpos hk, hread]

/-! ## What an instruction's effect changes and leaves unchanged -/

/-- From `s` to `t` the log grew by the one event that the selector in register 2 names, with the argument of
register 4 where it is printed (R143 to R145). -/
def AppendsSyscallEvent (s t : State) : Prop :=
  (s.read 2#5 = 1#32 ∧ t.out = s.out ++ [.printInt (s.read 4#5)]) ∨
  (s.read 2#5 = 11#32 ∧ t.out = s.out ++ [.printChar (s.read 4#5)]) ∨
  (s.read 2#5 ∉ [1#32, 10#32, 11#32] ∧ t.out = s.out ++ [.unknownSyscall (s.read 2#5)])

section Effect
variable {s t : State} {i : Instr} (e : Effect s i t)
include e

theorem Effect.prog_eq : t.prog = s.prog := by cases e <;> simp

/-- At most one write through the port; an effect without one counts as a write to index 0 (R23). -/
theorem Effect.regs_eq_write : ∃ d v, t.regs = (s.write d v).regs := by
  cases e with
  | write d v => exact ⟨d, v, rfl⟩
  | _ => exact ⟨0#5, 0#32, rfl⟩

/-- No register but the target of the register use table changes (R25). -/
theorem Effect.read_of_ne_target {r : Reg} (hr : writeTarget i ≠ some r) : t.read r = s.read r := by
  cases e with
  | write d v h =>
    have hrd : r ≠ d := fun hrd => hr (by rw [h, hrd])
    simp [read_write, hrd]
  | _ => rfl

/-- The cursor stays, goes to the next line, or moves by a branch offset (R105). -/
theorem Effect.pc_cases : t.pc = s.pc ∨ t.pc = s.pc + 1 ∨ ∃ imm, t.pc = s.pc + lineDelta imm := by
  cases e with
  | write => exact .inr (.inl (by simp))
  | advance => exact .inr (.inl rfl)
  | branch imm => exact .inr (.inr ⟨imm, rfl⟩)
  | printInt => exact .inr (.inl rfl)
  | printChar => exact .inr (.inl rfl)
  | exit => exact .inl rfl
  | unknown => exact .inl rfl

/-- An effect adds at most one event, the one of the syscall word (R33). -/
theorem Effect.out_cases :
    t.out = s.out ∨ (encode i = 0x0000000C#32 ∧ AppendsSyscallEvent s t) := by
  cases e with
  | write => exact .inl (by simp)
  | advance => exact .inl rfl
  | branch => exact .inl rfl
  | exit => exact .inl rfl
  | printInt hi h => exact .inr ⟨hi, .inl ⟨h, rfl⟩⟩
  | printChar hi h => exact .inr ⟨hi, .inr (.inl ⟨h, rfl⟩)⟩
  | unknown hi h => exact .inr ⟨hi, .inr (.inr ⟨by simpa using h, rfl⟩)⟩
end Effect

/-! ## What a step can do -/

/-- The step on a cursor at which nothing is fetched (R101). -/
theorem step_of_fetch_none {s : State} (hr : s.status = .running) (hf : s.prog.fetch s.pc = none) :
    step s = .next (s.halt .endOfProgram) := by
  unfold step
  simp [hr, hf]

/-- The step on a fetched word that does not decode (R102). -/
theorem step_of_undecodable {s : State} {w : Word} (hr : s.status = .running) (hf : s.prog.fetch s.pc = some w)
    (hd : decodes w = false) : step s = .next (s.raiseDecodeFault w) := by
  obtain ⟨why, hw⟩ := (decodes_eq_false_iff w).1 hd
  unfold step
  simp [hr, hf, hw]

/-- A step that answers ended the program, faulted on an illegal word, or had the effect of the decoded instruction. -/
theorem step_next_cases {s t : State} (h : step s = .next t) :
    (s.prog.inRange s.pc = false ∧ t = s.halt .endOfProgram) ∨
    (∃ w, s.prog.fetch s.pc = some w ∧ decodes w = false ∧ t = s.raiseDecodeFault w) ∨
    (∃ w i, s.prog.fetch s.pc = some w ∧ decode w = .op i ∧ exec i s = .next t) := by
  rcases step_cases (running_of_step h) with ⟨hr, hs⟩ | ⟨w, hf, hd, hs⟩ | ⟨w, i, hf, hd, hs⟩
  · rw [hs] at h
    cases h
    exact .inl ⟨hr, rfl⟩
  · rw [hs] at h
    cases h
    exact .inr (.inl ⟨w, hf, hd, rfl⟩)
  · exact .inr (.inr ⟨w, i, hf, hd, hs ▸ h⟩)

theorem step_prog_eq {s t : State} (h : step s = .next t) : t.prog = s.prog := by
  rcases step_next_cases h with ⟨-, rfl⟩ | ⟨w, -, -, rfl⟩ | ⟨w, i, -, -, he⟩
  · rfl
  · rfl
  · exact (effect_of_exec he).prog_eq

/-- Each step uses the write port at most once (R23). -/
theorem step_regs_eq_write {s t : State} (h : step s = .next t) : ∃ d v, t.regs = (s.write d v).regs := by
  rcases step_next_cases h with ⟨-, rfl⟩ | ⟨w, -, -, rfl⟩ | ⟨w, i, -, -, he⟩
  · exact ⟨0#5, 0#32, rfl⟩
  · exact ⟨0#5, 0#32, rfl⟩
  · exact (effect_of_exec he).regs_eq_write

/-- A write through the port leaves entry 0, whatever state holds the register file (R23). -/
theorem entry_zero_of_regs_eq_write {s t : State} (h : ∃ d v, t.regs = (s.write d v).regs) : t.regs[0] = s.regs[0] := by
  obtain ⟨d, v, hregs⟩ := h
  simp [hregs]

/-- Settles O8: the port's laws, and every step is at most one write through it. -/
theorem writePortAndZeroRegister : Obligations.WritePortAndZeroRegister := by
  unfold Obligations.WritePortAndZeroRegister
  exact ⟨write_zero, fun s r v k => read_write s r v k, fun s r v => by simp, read_zero, fun s t => step_regs_eq_write⟩

end Sys2Proof.Machine
end

section
/-! PROOF. The invariant of the machine: reset, boot, every step and every run (R23, R28, R31, R200). -/

namespace Sys2Proof.Machine

/-! ## The cursor (R28) -/

/-- Within the program, the cursor's three moves stay inside the bounds. -/
theorem step_keeps_cursorBounded {s t : State} (hb : CursorBounded s) (h : step s = .next t) : CursorBounded t := by
  have hprog := step_prog_eq h
  rcases step_next_cases h with ⟨-, rfl⟩ | ⟨w, -, -, rfl⟩ | ⟨w, i, hf, -, he⟩
  · exact hb
  · exact hb
  · obtain ⟨hlow, hhigh⟩ := (Memory.inRange_iff _ _).1 (Memory.inRange_of_fetch hf)
    unfold CursorBounded
    rw [hprog]
    rcases (effect_of_exec he).pc_cases with hpc | hpc | ⟨imm, hpc⟩
    · omega
    · omega
    · have hdelta := lineDelta_bounds imm
      omega

theorem cursorBounded_of_pc_zero {s : State} (h : s.pc = 0) : CursorBounded s := by
  unfold CursorBounded
  omega

/-! ## The status (R200) -/

theorem noUnknown_nil : NoUnknown [] := by simp [NoUnknown]

theorem noUnknown_append_singleton {es : List Event} {e : Event} (hes : NoUnknown es)
    (he : ∀ v, e ≠ .unknownSyscall v) : NoUnknown (es ++ [e]) := by
  intro v hv
  rcases List.mem_append.1 hv with hv | hv
  · exact hes v hv
  · exact he v (List.mem_singleton.1 hv).symm

/-- A running state's status is truthful exactly when no unknown-syscall event stands in its log. -/
theorem statusMeaning_iff_of_running {s : State} (h : s.status = .running) : StatusMeaning s ↔ NoUnknown s.out := by
  unfold StatusMeaning
  rw [h]

theorem statusMeaning_of_running {s : State} (h : s.status = .running) (hlog : NoUnknown s.out) : StatusMeaning s :=
  (statusMeaning_iff_of_running h).2 hlog

/-- The effect of a fetched instruction on a running machine leaves a truthful status. -/
theorem Effect.statusMeaning {s t : State} {w : Word} {i : Instr} (e : Effect s i t) (hr : s.status = .running)
    (hf : s.prog.fetch s.pc = some w) (hd : decode w = .op i) (hlog : NoUnknown s.out) : StatusMeaning t := by
  have hsyscall : encode i = 0x0000000C#32 → s.prog.fetch s.pc = some 0x0000000C#32 :=
    fun hi => eq_syscallWord_of_encode hd hi ▸ hf
  cases e with
  | write => exact statusMeaning_of_running (by simpa using hr) (by simpa using hlog)
  | advance => exact statusMeaning_of_running hr hlog
  | branch => exact statusMeaning_of_running hr hlog
  | printInt => exact statusMeaning_of_running hr (noUnknown_append_singleton hlog nofun)
  | printChar => exact statusMeaning_of_running hr (noUnknown_append_singleton hlog nofun)
  | exit hi h => exact ⟨hsyscall hi, h, hlog⟩
  | unknown hi h =>
    obtain ⟨h1, h10, h11⟩ := h
    exact ⟨hsyscall hi, rfl, h1, h10, h11, s.out, rfl, hlog⟩

/-- A step keeps the status truthful: what ends the run is still there to see. -/
theorem step_keeps_statusMeaning {s t : State} (hm : StatusMeaning s) (h : step s = .next t) : StatusMeaning t := by
  have hr := running_of_step h
  have hlog := (statusMeaning_iff_of_running hr).1 hm
  rcases step_next_cases h with ⟨hout, rfl⟩ | ⟨w, hf, hd, rfl⟩ | ⟨w, i, hf, hd, he⟩
  · exact ⟨(Memory.inRange_eq_false_iff _ _).1 hout, hlog⟩
  · exact ⟨hf, hd, hlog⟩
  · exact (effect_of_exec he).statusMeaning hr hf hd hlog

/-! ## The obligations -/

/-- Settles O28: each part of the invariant is kept by itself. -/
theorem everyStepKeepsTheInvariant : Obligations.EveryStepKeepsTheInvariant := by
  unfold Obligations.EveryStepKeepsTheInvariant
  intro cfg s t hinv h
  exact {
    zero := (entry_zero_of_regs_eq_write (step_regs_eq_write h)).trans hinv.zero
    capacity := by rw [step_prog_eq h]; exact hinv.capacity
    cursor := step_keeps_cursorBounded hinv.cursor h
    status := step_keeps_statusMeaning hinv.status h }

/-- Every entry of the register file holds 0 after reset, entry 0 included (R40). -/
theorem reset_regs_getElem (k : Nat) (hk : k < 32) : State.reset.regs[k] = 0#32 := Vector.getElem_replicate hk

/-- The reset state with a program that fits meets the invariant. -/
theorem inv_reset_with_prog {cfg : Config} {m : Memory} (h : m.wf cfg = true) :
    Inv cfg { State.reset with prog := m } where
  zero := reset_regs_getElem 0 (by decide)
  capacity := h
  cursor := cursorBounded_of_pc_zero rfl
  status := statusMeaning_of_running rfl noUnknown_nil

/-- Settles O1: the register file is 32 copies of 0, and the other fields are written out in `State.reset`. -/
theorem resetLeavesTheSpecifiedValues : Obligations.ResetLeavesTheSpecifiedValues := by
  unfold Obligations.ResetLeavesTheSpecifiedValues
  exact ⟨fun k => reset_regs_getElem k k.isLt, reset_pc, reset_status, reset_out⟩

/-- Settles O29: `boot` starts in the reset state with a listing that fits, and the empty program of reset fits. -/
theorem startMeetsTheInvariant : Obligations.StartMeetsTheInvariant := by
  unfold Obligations.StartMeetsTheInvariant
  refine ⟨fun cfg => inv_reset_with_prog (reset_prog_wf cfg), fun cfg listing s h => ?_⟩
  obtain ⟨rfl, hwf, -⟩ := boot_next h
  exact inv_reset_with_prog hwf

/-- Settles O57, from O29 and O28 by induction on the run. -/
theorem everyReachedStateMeetsTheInvariant : Obligations.EveryReachedStateMeetsTheInvariant := by
  unfold Obligations.EveryReachedStateMeetsTheInvariant
  rintro cfg listing k s ⟨s₀, hboot, hrun⟩
  exact run_induction (everyStepKeepsTheInvariant cfg) k s₀ s (startMeetsTheInvariant.2 cfg listing s₀ hboot) hrun

/-- Settles O27: line 0 is within the bounds, a step keeps them, and they lie inside the signed 32-bit range. -/
theorem cursorStaysBounded : Obligations.CursorStaysBounded := by
  unfold Obligations.CursorStaysBounded
  refine ⟨fun cfg listing s h => (startMeetsTheInvariant.2 cfg listing s h).cursor,
    fun s t => step_keeps_cursorBounded, fun s hb hlen => ?_⟩
  obtain ⟨hlow, hhigh⟩ := hb
  exact BitVec.toInt_ofInt_eq_self (by decide) (by omega) (by omega)

/-! ## The output log (R33) -/

/-- A step appends the syscall's event or nothing, tied to the fetched word (R33). -/
theorem step_out_cases {s t : State} (h : step s = .next t) :
    t.out = s.out ∨ (s.prog.fetch s.pc = some 0x0000000C#32 ∧ AppendsSyscallEvent s t) := by
  rcases step_next_cases h with ⟨-, rfl⟩ | ⟨w, -, -, rfl⟩ | ⟨w, i, hf, hd, he⟩
  · exact .inl rfl
  · exact .inl rfl
  · rcases (effect_of_exec he).out_cases with hout | ⟨hi, hout⟩
    · exact .inl hout
    · exact .inr ⟨eq_syscallWord_of_encode hd hi ▸ hf, hout⟩

/-- The log before a step is an initial part of the log after it. -/
theorem step_out_grows {s t : State} (h : step s = .next t) : s.out <+: t.out := by
  rcases step_out_cases h with hout | ⟨-, ⟨-, hout⟩ | ⟨-, hout⟩ | ⟨-, hout⟩⟩
  · rw [hout]
  · exact ⟨_, hout.symm⟩
  · exact ⟨_, hout.symm⟩
  · exact ⟨_, hout.symm⟩

/-- Settles O24: a step appends at most the syscall's one event, and by induction on the run nothing is lost. -/
theorem outputLogOnlyGrows : Obligations.OutputLogOnlyGrows := by
  unfold Obligations.OutputLogOnlyGrows
  refine ⟨fun s t => step_out_cases, fun k s t hrun => ?_⟩
  exact run_induction (P := fun u => s.out <+: u.out) (fun _ _ hu h => hu.trans (step_out_grows h)) k s t
    List.prefix_rfl hrun

end Sys2Proof.Machine
end

section
/-! PROOF. What an instruction and a step depend on: the register use table (R25), and the step's only inputs
(R37, R38, R109). -/

namespace Sys2Proof.Machine

/-! ## Moves of two states that match -/

/-- From `s` to `t` and from `s'` to `t'` the same happened: the same value at the target `d`, the same cursor move,
the same events, and the same status or none. -/
structure SameMove (d : Option Reg) (s s' t t' : State) : Prop where
  read : ∀ r, d = some r → t'.read r = t.read r
  pc : t'.pc - s'.pc = t.pc - s.pc
  out : ∃ es, t.out = s.out ++ es ∧ t'.out = s'.out ++ es
  status : (t.status = s.status ∧ t'.status = s'.status) ∨ t'.status = t.status

/-- If `a` answers a next state from `s`, then `a'` answers one from `s'`, and the two moves match. -/
def SameAnswer (d : Option Reg) (s s' : State) (a a' : Result) : Prop :=
  ∀ t, a = .next t → ∃ t', a' = .next t' ∧ SameMove d s s' t t'

theorem SameMove.sameAnswer {d : Option Reg} {s s' t t' : State} (h : SameMove d s s' t t') :
    SameAnswer d s s' (.next t) (.next t') := by
  rintro _ ⟨⟩
  exact ⟨t', rfl, h⟩

section SameAnswer
variable (s s' : State)

/-- The same value through the write port of two states. -/
theorem sameAnswer_writeNext (d : Reg) (v : Word) :
    SameAnswer (some d) s s' (writeNext d v s) (writeNext d v s') := by
  refine SameMove.sameAnswer ⟨?_, by simp, ⟨[], by simp⟩, .inl (by simp)⟩
  rintro _ ⟨⟩
  by_cases hd : d = 0#5
  · simp [hd]
  · simp [read_write, hd]

theorem sameMove_advance : SameMove none s s' s.advance s'.advance where
  read := nofun
  pc := by simp
  out := ⟨[], by simp⟩
  status := .inl ⟨rfl, rfl⟩

/-- The same condition and offset in two states. -/
theorem sameAnswer_branchNext (c : Bool) (imm : Imm) :
    SameAnswer none s s' (branchNext c imm s) (branchNext c imm s') := by
  cases c with
  | false => exact (sameMove_advance s s').sameAnswer
  | true => exact SameMove.sameAnswer ⟨nofun, by simp, ⟨[], by simp⟩, .inl ⟨rfl, rfl⟩⟩

theorem sameMove_emit_advance (e : Event) : SameMove none s s' (s.emit e).advance (s'.emit e).advance where
  read := nofun
  pc := by simp
  out := ⟨[e], rfl, rfl⟩
  status := .inl ⟨rfl, rfl⟩

theorem sameMove_halt (r : HaltReason) : SameMove none s s' (s.halt r) (s'.halt r) where
  read := nofun
  pc := by simp
  out := ⟨[], by simp⟩
  status := .inr rfl

theorem sameMove_emit_halt (e : Event) (r : HaltReason) :
    SameMove none s s' ((s.emit e).halt r) ((s'.emit e).halt r) where
  read := nofun
  pc := by simp
  out := ⟨[e], rfl, rfl⟩
  status := .inr rfl

/-- The dispatcher reads the selector, and the argument only to print it (R25). -/
theorem sameAnswer_execSyscall (h : ∀ r ∈ readSet s .syscall, s'.read r = s.read r) :
    SameAnswer none s s' (execSyscall s) (execSyscall s') := by
  have h2 : s'.read 2#5 = s.read 2#5 := h _ (by rw [readSet]; split_ifs <;> simp)
  have h4 (hprint : s.read 2#5 = 1#32 ∨ s.read 2#5 = 11#32) : s'.read 4#5 = s.read 4#5 :=
    h _ (by simp [readSet, hprint])
  rw [execSyscall_eq s, execSyscall_eq s', h2]
  split_ifs with _ hint hchar
  · exact (sameMove_halt s s' _).sameAnswer
  · rw [h4 (.inl hint)]
    exact (sameMove_emit_advance s s' _).sameAnswer
  · rw [h4 (.inr hchar)]
    exact (sameMove_emit_advance s s' _).sameAnswer
  · exact (sameMove_emit_halt s s' _ _).sameAnswer

/-! ## Meanings over operands that agree -/

/-- A result computed from one register. -/
theorem sameAnswer_unary (d rs : Reg) (f : Word → Word) (h : ∀ r ∈ [rs], s'.read r = s.read r) :
    SameAnswer (some d) s s' (writeNext d (f (s.read rs)) s) (writeNext d (f (s'.read rs)) s') := by
  rw [h rs (by simp)]
  exact sameAnswer_writeNext s s' d _

/-- A result computed from two registers. -/
theorem sameAnswer_binary (d rs rt : Reg) (f : Word → Word → Word) (h : ∀ r ∈ [rs, rt], s'.read r = s.read r) :
    SameAnswer (some d) s s' (writeNext d (f (s.read rs) (s.read rt)) s)
      (writeNext d (f (s'.read rs) (s'.read rt)) s') := by
  rw [h rs (by simp), h rt (by simp)]
  exact sameAnswer_writeNext s s' d _

/-- A condition on two registers. -/
theorem sameAnswer_branch (rs rt : Reg) (c : Word → Word → Bool) (imm : Imm)
    (h : ∀ r ∈ [rs, rt], s'.read r = s.read r) :
    SameAnswer none s s' (branchNext (c (s.read rs) (s.read rt)) imm s)
      (branchNext (c (s'.read rs) (s'.read rt)) imm s') := by
  rw [h rs (by simp), h rt (by simp)]
  exact sameAnswer_branchNext s s' _ imm

/-- `mul` reads its operands only when the guard on the index `t` passes, and then writes `d` (R190). -/
theorem sameAnswer_execMul (d rs rt : Reg) (h : ∀ r ∈ [rs, rt], s'.read r = s.read r) :
    SameAnswer (writeTarget (.mul d rs rt)) s s' (execMul d rs rt s) (execMul d rs rt s') := by
  unfold execMul writeTarget
  by_cases hrt : rt = 0#5
  · simpa [hrt] using (sameMove_advance s s').sameAnswer
  · simpa [hrt] using sameAnswer_binary s s' d rs rt mulWord h
end SameAnswer

/-- An instruction answers alike in two states that agree on the registers the table says it reads (R25). -/
theorem exec_sameAnswer {i : Instr} {s s' : State} (hwf : i.wellFormed = true)
    (h : ∀ r ∈ readSet s i, s'.read r = s.read r) : SameAnswer (writeTarget i) s s' (exec i s) (exec i s') := by
  cases i with
  | add d rs rt => exact sameAnswer_binary s s' d rs rt addWord h
  | sub d rs rt => exact sameAnswer_binary s s' d rs rt subWord h
  | and d rs rt => exact sameAnswer_binary s s' d rs rt andWord h
  | or d rs rt => exact sameAnswer_binary s s' d rs rt orWord h
  | slt d rs rt => exact sameAnswer_binary s s' d rs rt setLess h
  | syscall => exact sameAnswer_execSyscall s s' h
  | syscallAlias w =>
    have hw : w ≠ 0x0000000C#32 := by
      rintro rfl
      exact absurd hwf (by decide)
    rw [exec, exec, execSyscallAlias_eq hw, execSyscallAlias_eq hw]
    exact (sameMove_advance s s').sameAnswer
  | beq rs rt imm => exact sameAnswer_branch s s' rs rt condEqual imm h
  | bne rs rt imm => exact sameAnswer_branch s s' rs rt condNotEqual imm h
  | addi rt rs imm => exact sameAnswer_unary s s' rt rs (addWord · (sext16 imm)) h
  | slti rt rs imm => exact sameAnswer_unary s s' rt rs (setLess · (sext16 imm)) h
  | andi rt rs imm => exact sameAnswer_unary s s' rt rs (andWord · (zext16 imm)) h
  | ori rt rs imm => exact sameAnswer_unary s s' rt rs (orWord · (zext16 imm)) h
  | lui rt imm => exact sameAnswer_writeNext s s' rt _
  | mul d rs rt => exact sameAnswer_execMul s s' d rs rt h

/-- Settles O9: the frame is the effect's, the dependence on the read registers is `exec_sameAnswer`. -/
theorem registerUseTable : Obligations.RegisterUseTable := by
  unfold Obligations.RegisterUseTable
  refine ⟨fun i s t he r => (effect_of_exec he).read_of_ne_target, fun i s s' t hwf hreads he => ?_⟩
  obtain ⟨t', he', hmove⟩ := exec_sameAnswer hwf hreads t he
  exact ⟨t', he', hmove.read, hmove.pc, hmove.out, hmove.status⟩

/-! ## The step's inputs (R37, R109) -/

/-- Two states with the same register file, cursor and status run an instruction to the same ones, with the same
events. -/
theorem exec_same_of_same_regs {i : Instr} {s s' t : State} (hwf : i.wellFormed = true) (hregs : s'.regs = s.regs)
    (hpc : s'.pc = s.pc) (hstatus : s'.status = s.status) (he : exec i s = .next t) :
    ∃ t' es, exec i s' = .next t' ∧ t'.regs = t.regs ∧ t'.pc = t.pc ∧ t'.status = t.status ∧
      t.out = s.out ++ es ∧ t'.out = s'.out ++ es := by
  have hread (r : Reg) : s'.read r = s.read r := by rw [State.read, State.read, hregs]
  obtain ⟨t', he', hmove⟩ := exec_sameAnswer hwf (fun r _ => hread r) t he
  obtain ⟨es, hout, hout'⟩ := hmove.out
  have hread' (r : Reg) : t'.read r = t.read r := by
    by_cases hr : writeTarget i = some r
    · exact hmove.read r hr
    · rw [(effect_of_exec he').read_of_ne_target hr, (effect_of_exec he).read_of_ne_target hr, hread]
  have hzero : t'.regs[0] = t.regs[0] := by
    rw [entry_zero_of_regs_eq_write (effect_of_exec he').regs_eq_write,
      entry_zero_of_regs_eq_write (effect_of_exec he).regs_eq_write, hregs]
  have hpc' : t'.pc = t.pc := by
    have hmoved := hmove.pc
    omega
  have hstatus' : t'.status = t.status := by
    rcases hmove.status with ⟨ht, ht'⟩ | h
    · rw [ht, ht', hstatus]
    · exact h
  exact ⟨t', es, he', regs_eq_of_read_eq hread' hzero, hpc', hstatus', hout, hout'⟩

/-- Settles O26: an ending changes the status alone, a decoded instruction runs alike by `exec_same_of_same_regs`. -/
theorem stepSeesOnlyTheFetchedWord : Obligations.StepSeesOnlyTheFetchedWord := by
  unfold Obligations.StepSeesOnlyTheFetchedWord
  intro s s' t hregs hpc hstatus hfetch h
  have hr' : s'.status = .running := hstatus.trans (running_of_step h)
  rw [← hpc] at hfetch
  rcases step_next_cases h with ⟨hout, rfl⟩ | ⟨w, hf, hd, rfl⟩ | ⟨w, i, hf, hd, he⟩
  · have hf' := hfetch.trans (hpc ▸ (s.prog.fetch_eq_none_iff s.pc).2 hout)
    exact ⟨_, [], step_of_fetch_none hr' hf', hregs, hpc, rfl, by simp, by simp⟩
  · have hf' := hfetch.trans (hpc ▸ hf)
    exact ⟨_, [], step_of_undecodable hr' hf' hd, hregs, hpc, rfl, by simp, by simp⟩
  · have hf' := hfetch.trans (hpc ▸ hf)
    obtain ⟨t', es, he', hsame⟩ := exec_same_of_same_regs (wellFormed_of_decode hd) hregs hpc hstatus he
    exact ⟨t', es, (step_of_decode hr' hf' hd).trans he', hsame⟩

end Sys2Proof.Machine
end

section
/-! PROOF. The program store: what loading admits and refuses (R54, R234), and that no run writes the program
(R53, R65). -/

namespace Sys2Proof.Machine

/-! ## Loading -/

theorem Memory.wf_iff (cfg : Config) (m : Memory) : m.wf cfg = true ↔ m.length ≤ cfg.capacity := by
  rw [Memory.wf, decide_eq_true_iff]

/-- A listing over CAPACITY is refused by its length alone, before any word is looked at (R54, log entry 11). -/
theorem boot_of_overCapacity {cfg : Config} {listing : Memory} (h : cfg.capacity < listing.length) :
    boot cfg listing = .refused (.overCapacity listing.length) := by
  have hwf : ¬ listing.wf cfg = true := by
    rw [Memory.wf_iff]
    omega
  rw [boot, if_pos hwf]

/-- The converse of `boot_next`: a listing that fits, and that decodes when it is to be validated, starts from
reset. -/
theorem boot_of_wf {cfg : Config} {listing : Memory} (hwf : listing.wf cfg = true)
    (hvalid : cfg.preloadValidate = true → ProgramDecodes listing) :
    boot cfg listing = .next { State.reset with prog := listing } := by
  rw [boot, if_neg (not_not_intro hwf)]
  split_ifs with hp
  · rw [(firstUndecodable_eq_none_iff listing).2 (hvalid hp)]
  · rfl

/-- Settles O3: the length is checked first, and on the empty program line 0 is already outside it (R101). -/
theorem bootRefusesOverlongListings : Obligations.BootRefusesOverlongListings := by
  unfold Obligations.BootRefusesOverlongListings
  refine ⟨fun _ _ _ => rfl, fun cfg listing => boot_of_overCapacity, fun cfg listing hlen hdec => ?_, fun cfg => ?_⟩
  · exact boot_of_wf ((listing.wf_iff cfg).2 hlen) fun _ => hdec
  · have hfetch : State.reset.prog.fetch State.reset.pc = none := Memory.fetch_natCast [] 0
    exact ⟨State.reset, boot_of_wf (reset_prog_wf cfg) fun _ => nofun, step_of_fetch_none reset_status hfetch⟩

/-! ## Runs -/

/-- A run keeps the program, since every step does (R53). -/
theorem run_prog_eq {k : Nat} {s t : State} (h : Sys2Proof.core.run k s = .next t) : t.prog = s.prog :=
  run_induction (P := fun u => u.prog = s.prog) (fun _ _ hu hstep => (step_prog_eq hstep).trans hu) k s t rfl h

/-- Settles O23: a fetch looks at the program alone, and a run keeps it. -/
theorem programIsImmutable : Obligations.ProgramIsImmutable := by
  unfold Obligations.ProgramIsImmutable
  refine ⟨fun s t => step_prog_eq, fun k s t hrun j => ?_⟩
  rw [run_prog_eq hrun]

end Sys2Proof.Machine
end

section
/-! PROOF. The decoder is the opcode table: every word lies in exactly one row of R76 to R78, the syscall class (R77) or
the illegal space (R82), and `decode` answers that row. -/

namespace Sys2Proof

/-! ## The tests of the table -/

/-- The base keys have bits 3 and 2 not both 1, so the syscall class and the five base rows are disjoint (R75, R77). -/
theorem baseKey_notMem_of_syscallBits {w : Word} (h : w &&& 0x0000000C#32 = 0x0000000C#32) :
    baseKey w ∉ [0x020#32, 0x022#32, 0x024#32, 0x025#32, 0x02A#32] := by
  have hbits : baseKey w &&& 0x0000000C#32 = 0x0000000C#32 := by
    rw [baseKey, BitVec.and_assoc]
    exact h
  intro hmem
  have hkeys : ∀ k ∈ [0x020#32, 0x022#32, 0x024#32, 0x025#32, 0x02A#32], k &&& 0x0000000C#32 ≠ 0x0000000C#32 := by
    simp
  exact hkeys _ hmem hbits

/-- The bit test of R77 on the bits themselves. -/
theorem syscallBits_iff (w : Word) :
    w &&& 0x0000000C#32 = 0x0000000C#32 ↔ w.getLsbD 3 = true ∧ w.getLsbD 2 = true := by
  constructor
  · intro h
    have h3 := congrArg (BitVec.getLsbD · 3) h
    have h2 := congrArg (BitVec.getLsbD · 2) h
    exact ⟨by simpa using h3, by simpa using h2⟩
  · rintro ⟨h3, h2⟩
    apply BitVec.eq_of_getLsbD_eq
    intro k hk
    rw [BitVec.getLsbD_and]
    interval_cases k <;> simp [h3, h2]

/-- The mask of a base row tests the opcode field and the key, for every key put in place (R76). -/
theorem and_baseMask_eq_append_iff (w : Word) (key : BitVec 11) :
    w &&& 0xFC0007FF#32 = (0#21 ++ key : BitVec 32) ↔
      opcodeField w = 0#32 ∧ baseKey w = (0#21 ++ key : BitVec 32) := by
  have hkey := baseKey_eq_append (0#21 ++ key : BitVec 32)
  rw [extract_key_append] at hkey
  exact and_baseMask_eq_iff w _ hkey

/-- A test of the opcode field against opcodes put in place is a test of `op6` (R72). -/
theorem opcodeField_mem_iff (w : Word) (l : List (BitVec 6)) :
    opcodeField w ∈ l.map (fun o => (o ++ 0#26 : BitVec 32)) ↔ op6 w ∈ l := by
  rw [opcodeField_eq_append]
  exact List.mem_map_of_injective (Function.LeftInverse.injective op6_append_zero)

/-- A test of the key against keys put in place is a test of bits 10 to 0 (R73). -/
theorem baseKey_mem_iff (w : Word) (l : List (BitVec 11)) :
    baseKey w ∈ l.map (fun k => (0#21 ++ k : BitVec 32)) ↔ w.extractLsb' 0 11 ∈ l := by
  rw [baseKey_eq_append]
  exact List.mem_map_of_injective (Function.LeftInverse.injective extract_key_append)

/-! ## The table -/

/-- The row a word lies in, by match and mask on the word, and what the row answers: the base rows of R76, the syscall
class of R77 in its two rows (R140, R141), the extended rows of R78, the illegal words of R82. -/
inductive DecodesAs (w : Word) : Decoded → Prop where
  | add (h : w &&& 0xFC0007FF#32 = 0x00000020#32) : DecodesAs w (.op (.add (dField w) (sField w) (tField w)))
  | sub (h : w &&& 0xFC0007FF#32 = 0x00000022#32) : DecodesAs w (.op (.sub (dField w) (sField w) (tField w)))
  | and (h : w &&& 0xFC0007FF#32 = 0x00000024#32) : DecodesAs w (.op (.and (dField w) (sField w) (tField w)))
  | or (h : w &&& 0xFC0007FF#32 = 0x00000025#32) : DecodesAs w (.op (.or (dField w) (sField w) (tField w)))
  | slt (h : w &&& 0xFC0007FF#32 = 0x0000002A#32) : DecodesAs w (.op (.slt (dField w) (sField w) (tField w)))
  | syscall (h : w = 0x0000000C#32) : DecodesAs w (.op .syscall)
  | syscallAlias (h : w &&& 0xFC00000C#32 = 0x0000000C#32) (hne : w ≠ 0x0000000C#32) :
      DecodesAs w (.op (.syscallAlias w))
  | beq (h : w &&& 0xFC000000#32 = 0x10000000#32) : DecodesAs w (.op (.beq (sField w) (tField w) (immField w)))
  | bne (h : w &&& 0xFC000000#32 = 0x14000000#32) : DecodesAs w (.op (.bne (sField w) (tField w) (immField w)))
  | addi (h : w &&& 0xFC000000#32 = 0x20000000#32) : DecodesAs w (.op (.addi (tField w) (sField w) (immField w)))
  | slti (h : w &&& 0xFC000000#32 = 0x28000000#32) : DecodesAs w (.op (.slti (tField w) (sField w) (immField w)))
  | andi (h : w &&& 0xFC000000#32 = 0x30000000#32) : DecodesAs w (.op (.andi (tField w) (sField w) (immField w)))
  | ori (h : w &&& 0xFC000000#32 = 0x34000000#32) : DecodesAs w (.op (.ori (tField w) (sField w) (immField w)))
  | lui (h : w &&& 0xFC000000#32 = 0x3C000000#32) : DecodesAs w (.op (.lui (tField w) (immField w)))
  | mul (h : w &&& 0xFC000000#32 = 0x70000000#32) : DecodesAs w (.op (.mul (dField w) (sField w) (tField w)))
  | unrecognizedBase (hop : opcodeField w = 0x00000000#32)
      (hkey : baseKey w ∉ [0x020#32, 0x022#32, 0x024#32, 0x025#32, 0x02A#32])
      (hbits : ¬ w &&& 0x0000000C#32 = 0x0000000C#32) : DecodesAs w (.invalid .unrecognizedBase)
  | unrecognizedExtended
      (hop : opcodeField w ∉ [0x00000000#32, 0x10000000#32, 0x14000000#32, 0x20000000#32, 0x28000000#32,
        0x30000000#32, 0x34000000#32, 0x3C000000#32, 0x70000000#32]) :
      DecodesAs w (.invalid .unrecognizedExtended)

/-- A word of the syscall class lies in one of its two rows. -/
theorem decodesAs_decodeSyscallClass {w : Word} (h : w &&& 0xFC00000C#32 = 0x0000000C#32) :
    DecodesAs w (.op (decodeSyscallClass w)) := by
  rcases decodeSyscallClass_cases w with ⟨hw, e⟩ | ⟨hne, e⟩
  · rw [e]
    exact .syscall hw
  · rw [e]
    exact .syscallAlias h hne

/-- The decoder's answer is the answer of a row the word lies in. -/
theorem decodesAs_decode (w : Word) : DecodesAs w (decode w) := by
  by_cases hop : opcodeField w = 0#32
  · have row : ∀ {m : Word}, m &&& 0x7FF#32 = m → baseKey w = m → w &&& 0xFC0007FF#32 = m :=
      fun hm hkey => (and_baseMask_eq_iff w _ hm).2 ⟨hop, hkey⟩
    rw [decode_of_base hop, decodeBase]
    split_ifs with hadd hsub hand hor hslt hbits
    · exact .add (row rfl hadd)
    · exact .sub (row rfl hsub)
    · exact .and (row rfl hand)
    · exact .or (row rfl hor)
    · exact .slt (row rfl hslt)
    · exact decodesAs_decodeSyscallClass ((and_syscallMask_eq_iff w).2 ⟨hop, hbits⟩)
    · exact .unrecognizedBase hop (by simp [*]) hbits
  · rw [decode_of_extended hop, decodeExtended]
    split_ifs with hbeq hbne haddi hslti handi hori hlui hmul
    · exact .beq hbeq
    · exact .bne hbne
    · exact .addi haddi
    · exact .slti hslti
    · exact .andi handi
    · exact .ori hori
    · exact .lui hlui
    · exact .mul hmul
    · exact .unrecognizedExtended (by simp [*])

/-- A word of the syscall class passes the five key tests and is split by `decodeSyscallClass` (R75, R77). -/
theorem decode_of_syscallClass {w : Word} (h : w &&& 0xFC00000C#32 = 0x0000000C#32) :
    decode w = .op (decodeSyscallClass w) := by
  obtain ⟨hop, hbits⟩ := (and_syscallMask_eq_iff w).1 h
  have hkey := baseKey_notMem_of_syscallBits hbits
  simp only [List.mem_cons, List.not_mem_nil, not_or] at hkey
  simp [decode_of_base hop, decodeBase, hkey, hbits]

/-- The rows are disjoint: the answer of any row a word lies in is the decoder's. -/
theorem DecodesAs.decode_eq {w : Word} {r : Decoded} (h : DecodesAs w r) : decode w = r := by
  cases h with
  | add h | sub h | and h | or h | slt h =>
    obtain ⟨hop, hkey⟩ := (and_baseMask_eq_iff w _ (by decide)).1 h
    simp [decode_of_base hop, decodeBase, hkey]
  | syscall h => rw [h, decode_of_syscallClass (by decide), decodeSyscallClass, if_pos rfl]
  | syscallAlias h hne => rw [decode_of_syscallClass h, decodeSyscallClass, if_neg hne]
  | beq h | bne h | addi h | slti h | andi h | ori h | lui h | mul h =>
    have hop : opcodeField w = _ := h
    simp [decode, decodeExtended, hop]
  | unrecognizedBase hop hkey hbits =>
    simp only [List.mem_cons, List.not_mem_nil, not_or] at hkey
    simp [decode_of_base hop, decodeBase, hkey, hbits]
  | unrecognizedExtended hop =>
    simp only [List.mem_cons, List.not_mem_nil, not_or] at hop
    simp [decode, decodeExtended, hop]

/-- The decoder is the table. -/
theorem decode_eq_iff {w : Word} {r : Decoded} : decode w = r ↔ DecodesAs w r :=
  ⟨fun h => h ▸ decodesAs_decode w, DecodesAs.decode_eq⟩

end Sys2Proof
end

section
/-! PROOF. The encoder and the decoder are inverse up to the ignored bits, and the outputs read off the decoder: the
mnemonic and the illegal space (30_encoding.md). -/

namespace Sys2Proof.Machine

/-! ## Decoding an encoded instruction (R91) -/

/-- A base row that reads its operands from the fields gives back the operands that the format was filled with. -/
theorem decode_wordBase (s t d : Reg) (key : BitVec 11) {f : Reg → Reg → Reg → Instr}
    (hrow : ∀ w, w &&& 0xFC0007FF#32 = (0#21 ++ key : BitVec 32) →
      DecodesAs w (.op (f (dField w) (sField w) (tField w)))) :
    decode (wordBase s t d key) = .op (f d s t) := by
  have h := hrow _ ((and_baseMask_eq_append_iff _ _).2 ⟨opcodeField_wordBase s t d key, baseKey_wordBase s t d key⟩)
  rw [dField_wordBase, sField_wordBase, tField_wordBase] at h
  exact h.decode_eq

/-- The same for an extended row with an immediate. -/
theorem decode_wordExtI (o : BitVec 6) (s t : Reg) (imm : Imm) {f : Reg → Reg → Imm → Instr}
    (hrow : ∀ w, w &&& 0xFC000000#32 = (o ++ 0#26 : BitVec 32) →
      DecodesAs w (.op (f (sField w) (tField w) (immField w)))) :
    decode (wordExtI o s t imm) = .op (f s t imm) := by
  have h := hrow _ (opcodeField_wordExtI o s t imm)
  rw [sField_wordExtI, tField_wordExtI, immField_wordExtI] at h
  exact h.decode_eq

/-- The same for `mul`, whose format is that of an immediate with `d` in its upper bits. -/
theorem decode_wordExtR_mul (s t d : Reg) : decode (wordExtR 0x1C#6 s t d) = .op (.mul d s t) := by
  have hop : opcodeField (wordExtR 0x1C#6 s t d) = 0x70000000#32 := by
    rw [wordExtR_eq_wordExtI, opcodeField_wordExtI]
    rfl
  have hs : sField (wordExtR 0x1C#6 s t d) = s := by rw [wordExtR_eq_wordExtI, sField_wordExtI]
  have ht : tField (wordExtR 0x1C#6 s t d) = t := by rw [wordExtR_eq_wordExtI, tField_wordExtI]
  have h := (DecodesAs.mul hop).decode_eq
  rwa [dField_wordExtR, hs, ht] at h

/-- Settles O12: in each format the row's match is the one the encoder writes, and the fields read back the operands. -/
theorem decodeOfEncodeIsTheInstruction : Obligations.DecodeOfEncodeIsTheInstruction := by
  unfold Obligations.DecodeOfEncodeIsTheInstruction
  intro i hwf
  cases i with
  | add d s t => exact decode_wordBase s t d 0x020#11 fun _ => .add
  | sub d s t => exact decode_wordBase s t d 0x022#11 fun _ => .sub
  | and d s t => exact decode_wordBase s t d 0x024#11 fun _ => .and
  | or d s t => exact decode_wordBase s t d 0x025#11 fun _ => .or
  | slt d s t => exact decode_wordBase s t d 0x02A#11 fun _ => .slt
  | syscall => exact (DecodesAs.syscall rfl).decode_eq
  | syscallAlias w =>
    rw [Instr.wellFormed, Bool.and_eq_true, isSyscallClass_iff, ← and_syscallMask_eq_iff, bne_iff_ne] at hwf
    exact (DecodesAs.syscallAlias hwf.1 hwf.2).decode_eq
  | beq s t imm => exact decode_wordExtI 0x04#6 s t imm fun _ => .beq
  | bne s t imm => exact decode_wordExtI 0x05#6 s t imm fun _ => .bne
  | addi t s imm => exact decode_wordExtI 0x08#6 s t imm (f := fun s t imm => .addi t s imm) fun _ => .addi
  | slti t s imm => exact decode_wordExtI 0x0A#6 s t imm (f := fun s t imm => .slti t s imm) fun _ => .slti
  | andi t s imm => exact decode_wordExtI 0x0C#6 s t imm (f := fun s t imm => .andi t s imm) fun _ => .andi
  | ori t s imm => exact decode_wordExtI 0x0D#6 s t imm (f := fun s t imm => .ori t s imm) fun _ => .ori
  | lui t imm => exact decode_wordExtI 0x0F#6 0#5 t imm (f := fun _ t imm => .lui t imm) fun _ => .lui
  | mul d s t => exact decode_wordExtR_mul s t d

/-! ## Encoding a decoded word, up to the ignored bits (R79) -/

/-- A word of a base row is its fields in format BASE. -/
theorem wordBase_of_baseRow {w : Word} {key : BitVec 11} (h : w &&& 0xFC0007FF#32 = (0#21 ++ key : BitVec 32)) :
    w = wordBase (sField w) (tField w) (dField w) key := by
  obtain ⟨hop, hk⟩ := (and_baseMask_eq_append_iff w key).1 h
  rw [← (baseKey_eq_iff w key).1 hk, wordBase_of_fields hop]

/-- A word of an extended row is its fields in format EXT-I. -/
theorem wordExtI_of_extRow {w : Word} {o : BitVec 6} (h : w &&& 0xFC000000#32 = (o ++ 0#26 : BitVec 32)) :
    w = wordExtI o (sField w) (tField w) (immField w) := by
  rw [← (opcodeField_eq_iff w o).1 h, wordExtI_of_fields]

/-- On the significant bits a word is the encoding of the instruction it decodes to. -/
theorem and_significantBits_of_decode {w : Word} {i : Instr} (h : decode w = .op i) :
    w &&& significantBits i = encode i := by
  have hall : w &&& 0xFFFFFFFF#32 = w := BitVec.and_allOnes
  cases decode_eq_iff.1 h with
  | add hrow => exact hall.trans (wordBase_of_baseRow (key := 0x020#11) hrow)
  | sub hrow => exact hall.trans (wordBase_of_baseRow (key := 0x022#11) hrow)
  | and hrow => exact hall.trans (wordBase_of_baseRow (key := 0x024#11) hrow)
  | or hrow => exact hall.trans (wordBase_of_baseRow (key := 0x025#11) hrow)
  | slt hrow => exact hall.trans (wordBase_of_baseRow (key := 0x02A#11) hrow)
  | syscall hrow => exact hall.trans hrow
  | syscallAlias => exact hall
  | beq hrow => exact hall.trans (wordExtI_of_extRow (o := 0x04#6) hrow)
  | bne hrow => exact hall.trans (wordExtI_of_extRow (o := 0x05#6) hrow)
  | addi hrow => exact hall.trans (wordExtI_of_extRow (o := 0x08#6) hrow)
  | slti hrow => exact hall.trans (wordExtI_of_extRow (o := 0x0A#6) hrow)
  | andi hrow => exact hall.trans (wordExtI_of_extRow (o := 0x0C#6) hrow)
  | ori hrow => exact hall.trans (wordExtI_of_extRow (o := 0x0D#6) hrow)
  | lui hrow =>
    have hop : op6 w = 0x0F#6 := (opcodeField_eq_iff w 0x0F#6).1 hrow
    rw [significantBits, encode, ← hop, wordExtI_of_fields_lui]
  | mul hrow =>
    have hop : op6 w = 0x1C#6 := (opcodeField_eq_iff w 0x1C#6).1 hrow
    rw [significantBits, encode, ← hop, wordExtR_of_fields]

/-- A `lui` word decodes as without its field `s`. -/
theorem decode_and_of_lui {w : Word} (h : opcodeField w = 0x3C000000#32) : decode (w &&& 0xFC1FFFFF#32) = decode w := by
  have hop : opcodeField (w &&& 0xFC1FFFFF#32) = 0x3C000000#32 := (opcodeField_and w _ (by decide)).trans h
  have ht : tField (w &&& 0xFC1FFFFF#32) = tField w := by rw [← wordExtI_of_fields_lui, tField_wordExtI]
  have himm : immField (w &&& 0xFC1FFFFF#32) = immField w := by rw [← wordExtI_of_fields_lui, immField_wordExtI]
  rw [(DecodesAs.lui hop).decode_eq, (DecodesAs.lui h).decode_eq, ht, himm]

/-- A `mul` word decodes as without its bits 10 to 0. -/
theorem decode_and_of_mul {w : Word} (h : opcodeField w = 0x70000000#32) : decode (w &&& 0xFFFFF800#32) = decode w := by
  rw [← wordExtR_of_fields, (opcodeField_eq_iff w 0x1C#6).1 h, decode_wordExtR_mul, (DecodesAs.mul h).decode_eq]

/-- The bits that an instruction's row ignores do not reach the decoder, in any word of that row's opcode. -/
theorem decode_and_significantBits {v w : Word} {i : Instr} (hv : decode v = .op i)
    (hop : opcodeField w = opcodeField v) : decode (w &&& significantBits i) = decode w := by
  have hall : w &&& 0xFFFFFFFF#32 = w := BitVec.and_allOnes
  cases decode_eq_iff.1 hv with
  | lui h => exact decode_and_of_lui (hop.trans h)
  | mul h => exact decode_and_of_mul (hop.trans h)
  | _ => exact congrArg decode hall

/-- Settles O13: words that agree on the significant bits have one opcode field, so they decode alike. -/
theorem onlyIgnoredBitsAreLost : Obligations.OnlyIgnoredBitsAreLost := by
  unfold Obligations.OnlyIgnoredBitsAreLost
  intro w i h
  have hwf := wellFormed_of_decode h
  have hw := and_significantBits_of_decode h
  refine ⟨hwf, hw, fun w' hw' => ?_⟩
  have hop : opcodeField w' = opcodeField w := by
    rw [← opcodeField_and_significantBits w' i, ← opcodeField_and_significantBits w i, hw', hw]
  calc decode w' = decode (w' &&& significantBits i) := (decode_and_significantBits h hop).symm
    _ = decode (encode i) := by rw [hw']
    _ = .op i := decodeOfEncodeIsTheInstruction i hwf

/-! ## Fields (R71) -/

/-- A slice of a word is the shift and mask formula, when the mask has ones in the slice's width. -/
theorem extractLsb'_eq_shift_and (w m : Word) (start : Nat) {len : Nat}
    (hm : ∀ k, k < len → m.getLsbD k = true) :
    w.extractLsb' start len = ((w >>> start) &&& m).setWidth len := by
  apply BitVec.eq_of_getLsbD_eq
  intro k hk
  simp [hk, hm k hk]

/-- Settles O11: each field is a slice, and `d` is a slice of the slice `imm`. -/
theorem fieldsAreShiftsAndMasks : Obligations.FieldsAreShiftsAndMasks := by
  unfold Obligations.FieldsAreShiftsAndMasks
  intro w
  have h5 : ∀ k, k < 5 → (0x1F#32).getLsbD k = true := by decide
  have h16 : ∀ k, k < 16 → (0xFFFF#32).getLsbD k = true := by decide
  refine ⟨extractLsb'_eq_shift_and w _ 21 h5, extractLsb'_eq_shift_and w _ 16 h5, extractLsb'_eq_shift_and w _ 11 h5,
    extractLsb'_eq_shift_and w _ 0 h16, ?_⟩
  apply BitVec.eq_of_getLsbD_eq
  intro k hk
  simp [dField, immField, hk]

/-! ## The mnemonic output (R86) -/

theorem mnemonicOf_of_decode {w : Word} {i : Instr} (h : decode w = .op i) : mnemonicOf w = some i.mnemonic := by
  rw [mnemonicOf, h]

/-- The name that a row's instruction shows is shown by every word of the row. -/
theorem mnemonicOf_of_decodesAs {w : Word} {i : Instr} (h : DecodesAs w (.op i)) : mnemonicOf w = some i.mnemonic :=
  mnemonicOf_of_decode h.decode_eq

theorem mnemonicOf_of_invalid {w : Word} {why : Illegal} (h : decode w = .invalid why) : mnemonicOf w = none := by
  rw [mnemonicOf, h]

/-- Settles O16: the fourteen names differ, so the name shown tells the constructor the word decodes to. -/
theorem mnemonicOutputIsOneOfFourteen : Obligations.MnemonicOutputIsOneOfFourteen := by
  unfold Obligations.MnemonicOutputIsOneOfFourteen
  simp only [← forall_and]
  intro w
  cases hd : decode w with
  | invalid why => simp [mnemonicOf_of_invalid hd]
  | op i =>
    rw [mnemonicOf_of_decode hd]
    cases i <;> simp [Instr.mnemonic]

/-! ## The syscall class (R77) -/

/-- A word is of the syscall class exactly when it lies in one of the class's two rows. -/
theorem syscallClass_iff_decode (w : Word) :
    w &&& 0xFC00000C#32 = 0x0000000C#32 ↔ decode w = .op .syscall ∨ decode w = .op (.syscallAlias w) := by
  constructor
  · intro h
    by_cases hw : w = 0x0000000C#32
    · exact .inl (DecodesAs.syscall hw).decode_eq
    · exact .inr (DecodesAs.syscallAlias h hw).decode_eq
  · rintro (h | h)
    · rw [eq_syscallWord_of_decode h]
      rfl
    · cases decode_eq_iff.1 h
      assumption

/-- Every word of the class shows as `syscall`, in whichever row it lies. -/
theorem mnemonicOf_of_syscallClass {w : Word} (h : w &&& 0xFC00000C#32 = 0x0000000C#32) :
    mnemonicOf w = some "syscall" := by
  rcases (syscallClass_iff_decode w).1 h with hd | hd
  · exact mnemonicOf_of_decode hd
  · exact mnemonicOf_of_decode hd

/-- Settles O14: the class is the decoder's two syscall rows, and its bits keep it apart from the base keys. -/
theorem syscallClassIsTheBitTest : Obligations.SyscallClassIsTheBitTest := by
  unfold Obligations.SyscallClassIsTheBitTest
  exact ⟨syscallClass_iff_decode, fun w => ⟨eq_syscallWord_of_decode, fun h => (DecodesAs.syscall h).decode_eq⟩,
    fun w => mnemonicOf_of_syscallClass, fun w h => baseKey_notMem_of_syscallBits ((and_syscallMask_eq_iff w).1 h).2⟩

/-! ## Mnemonics by match and mask (R76 to R78) -/

/-- The mask of a name's row: opcode field and key for the base rows (R76), opcode field and bits 3 and 2 for the
syscall class (R77), the opcode field alone for the extended rows (R78). -/
def mnemonicMask : String → Word
  | "add" | "sub" | "and" | "or" | "slt" => 0xFC0007FF#32
  | "syscall" => 0xFC00000C#32
  | _ => 0xFC000000#32

/-- The match of a name's row (R76 to R78); 0 for a string that is no name. -/
def mnemonicMatch : String → Word
  | "add" => 0x00000020#32
  | "sub" => 0x00000022#32
  | "and" => 0x00000024#32
  | "or" => 0x00000025#32
  | "slt" => 0x0000002A#32
  | "syscall" => 0x0000000C#32
  | "beq" => 0x10000000#32
  | "bne" => 0x14000000#32
  | "addi" => 0x20000000#32
  | "slti" => 0x28000000#32
  | "andi" => 0x30000000#32
  | "ori" => 0x34000000#32
  | "lui" => 0x3C000000#32
  | "mul" => 0x70000000#32
  | _ => 0x00000000#32

/-- A word that shows a name has the match of the name's row under the row's mask. -/
theorem and_mnemonicMask_of_mnemonicOf {w : Word} {m : String} (h : mnemonicOf w = some m) :
    w &&& mnemonicMask m = mnemonicMatch m := by
  cases hd : decode w with
  | invalid why =>
    rw [mnemonicOf_of_invalid hd] at h
    cases h
  | op i =>
    rw [mnemonicOf_of_decode hd] at h
    cases h
    cases decode_eq_iff.1 hd with
    | syscall hw =>
      rw [hw]
      rfl
    | _ => assumption

/-- Settles O58: a word that shows a name is in the name's row, and a word in a row decodes to the row's instruction. -/
theorem mnemonicFollowsMatchAndMask : Obligations.MnemonicFollowsMatchAndMask := by
  unfold Obligations.MnemonicFollowsMatchAndMask
  exact ⟨fun w => ⟨and_mnemonicMask_of_mnemonicOf, fun h => mnemonicOf_of_decodesAs (.add h)⟩,
    fun w => ⟨and_mnemonicMask_of_mnemonicOf, fun h => mnemonicOf_of_decodesAs (.sub h)⟩,
    fun w => ⟨and_mnemonicMask_of_mnemonicOf, fun h => mnemonicOf_of_decodesAs (.and h)⟩,
    fun w => ⟨and_mnemonicMask_of_mnemonicOf, fun h => mnemonicOf_of_decodesAs (.or h)⟩,
    fun w => ⟨and_mnemonicMask_of_mnemonicOf, fun h => mnemonicOf_of_decodesAs (.slt h)⟩,
    fun w => ⟨and_mnemonicMask_of_mnemonicOf, mnemonicOf_of_syscallClass⟩,
    fun w => ⟨and_mnemonicMask_of_mnemonicOf, fun h => mnemonicOf_of_decodesAs (.beq h)⟩,
    fun w => ⟨and_mnemonicMask_of_mnemonicOf, fun h => mnemonicOf_of_decodesAs (.bne h)⟩,
    fun w => ⟨and_mnemonicMask_of_mnemonicOf, fun h => mnemonicOf_of_decodesAs (.addi h)⟩,
    fun w => ⟨and_mnemonicMask_of_mnemonicOf, fun h => mnemonicOf_of_decodesAs (.slti h)⟩,
    fun w => ⟨and_mnemonicMask_of_mnemonicOf, fun h => mnemonicOf_of_decodesAs (.andi h)⟩,
    fun w => ⟨and_mnemonicMask_of_mnemonicOf, fun h => mnemonicOf_of_decodesAs (.ori h)⟩,
    fun w => ⟨and_mnemonicMask_of_mnemonicOf, fun h => mnemonicOf_of_decodesAs (.lui h)⟩,
    fun w => ⟨and_mnemonicMask_of_mnemonicOf, fun h => mnemonicOf_of_decodesAs (.mul h)⟩⟩

/-! ## The illegal space (R82) -/

/-- R82 (a), on the word's slices and bits. -/
theorem decode_eq_unrecognizedBase_iff (w : Word) : decode w = .invalid .unrecognizedBase ↔
    op6 w = 0x00#6 ∧ w.extractLsb' 0 11 ∉ [0x020#11, 0x022#11, 0x024#11, 0x025#11, 0x02A#11] ∧
    ¬ (w.getLsbD 3 = true ∧ w.getLsbD 2 = true) := by
  rw [← opcodeField_eq_iff, ← baseKey_mem_iff, ← syscallBits_iff, decode_eq_iff]
  constructor
  · rintro ⟨⟩
    exact ⟨‹_›, ‹_›, ‹_›⟩
  · rintro ⟨hop, hkey, hbits⟩
    exact .unrecognizedBase hop hkey hbits

/-- R82 (b), on `op6`. -/
theorem decode_eq_unrecognizedExtended_iff (w : Word) : decode w = .invalid .unrecognizedExtended ↔
    op6 w ∉ [0x00#6, 0x04#6, 0x05#6, 0x08#6, 0x0A#6, 0x0C#6, 0x0D#6, 0x0F#6, 0x1C#6] := by
  rw [← opcodeField_mem_iff, decode_eq_iff]
  constructor
  · rintro ⟨⟩
    assumption
  · exact .unrecognizedExtended

/-- Settles O15: the two invalid rows of the decoder, and the step on a word that does not decode. -/
theorem illegalSpaceIsExact : Obligations.IllegalSpaceIsExact := by
  unfold Obligations.IllegalSpaceIsExact
  refine ⟨decode_eq_unrecognizedBase_iff, decode_eq_unrecognizedExtended_iff, fun s w why hr hf hd => ?_⟩
  exact step_of_undecodable hr hf ((decodes_eq_false_iff w).2 ⟨why, hd⟩)

/-! ## Written out words (R74) -/

/-- Settles O10: the decoder evaluates on each of the six words. -/
theorem writtenOutWordsDecode : Obligations.WrittenOutWordsDecode := by
  unfold Obligations.WrittenOutWordsDecode
  decide

end Sys2Proof.Machine
end

section
/-! PROOF. The execution engine: when a step is enabled, what it runs, and how it moves the cursor (R101, R105 to
R107, R110). -/

namespace Sys2Proof.Machine

/-! ## What a step runs (R101, R106) -/

/-- Settles O17: `step_of_decode` says it for a running state. -/
theorem stepRunsTheDecodedInstruction : Obligations.StepRunsTheDecodedInstruction := by
  unfold Obligations.StepRunsTheDecodedInstruction
  exact fun s w i => step_of_decode

/-- The program after a 32-bit word is placed: that word at the cursor's line (log entry 15). -/
theorem withFetchWord_prog (s : State) (w : Word) :
    (s.withFetchWord 32 w.toNat).prog = s.prog.place s.pc.toNat w := by
  rw [State.withFetchWord, Nat.mod_eq_of_lt w.isLt, BitVec.ofNat_toNat, BitVec.setWidth_eq]

/-- Settles O18: the step fetches the word placed, and the other clauses are what `withFetchWord` and `place` keep. -/
theorem placedWordRunsNext : Obligations.PlacedWordRunsNext := by
  unfold Obligations.PlacedWordRunsNext
  intro s w i hd
  refine ⟨step_of_decode rfl ?_ hd, rfl, rfl, fun hpc => Int.toNat_of_nonneg hpc, fun j hj hr => ?_⟩
  · rw [withFetchWord_prog]
    exact Memory.fetch_place_self _ _ _
  · rw [withFetchWord_prog]
    exact Memory.fetch_place_of_ne _ _ _ j hj hr

/-- Settles O19: a cursor outside [0, N) fetches nothing. -/
theorem cursorOutsideTheProgramHalts : Obligations.CursorOutsideTheProgramHalts := by
  unfold Obligations.CursorOutsideTheProgramHalts
  intro s hr hout
  have hfetch : s.prog.fetch s.pc = none :=
    (s.prog.fetch_eq_none_iff s.pc).2 ((s.prog.inRange_eq_false_iff s.pc).2 hout)
  exact step_of_fetch_none hr hfetch

/-! ## When a step is enabled (R106, R107) -/

/-- A step from `Running` always answers a next state. -/
theorem step_answers_of_running {s : State} (hr : s.status = .running) : ∃ t, step s = .next t := by
  rcases step_cases hr with ⟨-, hs⟩ | ⟨w, -, -, hs⟩ | ⟨w, i, -, -, hs⟩
  · exact ⟨_, hs⟩
  · exact ⟨_, hs⟩
  · obtain ⟨t, ht, -⟩ := exec_effect i s
    exact ⟨t, hs.trans ht⟩

/-- A step answers a next state or the fault of a terminal status. -/
theorem step_ne_refused (s : State) (r : Refusal) : step s ≠ .refused r := by
  by_cases hr : s.status = .running
  · obtain ⟨t, ht⟩ := step_answers_of_running hr
    simp [ht]
  · simp [step_of_not_running hr]

/-- Settles O21: from `Running` a step answers, otherwise it is the fault notRunning. -/
theorem stepIsEnabledExactlyWhileRunning : Obligations.StepIsEnabledExactlyWhileRunning := by
  unfold Obligations.StepIsEnabledExactlyWhileRunning
  exact fun s => ⟨⟨fun ⟨_, ht⟩ => running_of_step ht, step_answers_of_running⟩, step_of_not_running,
    step_ne_refused s, resetEvent_status s⟩

/-! ## How the cursor moves (R105, R110) -/

/-- An ending holds the cursor; without one it goes to the next line, or to the target of the branch when that is
taken (R105). -/
theorem Effect.cursor_cases {s t : State} {i : Instr} (e : Effect s i t) :
    (t.status ≠ .running ∧ t.pc = s.pc) ∨ (t.status = s.status ∧ t.pc = s.pc + 1) ∨
    (t.status = s.status ∧ ∃ imm, takenBranch s i = some imm ∧ t.pc = s.pc + lineDelta imm) := by
  cases e with
  | write => exact .inr (.inl ⟨by simp, by simp⟩)
  | advance => exact .inr (.inl ⟨rfl, rfl⟩)
  | branch imm h => exact .inr (.inr ⟨rfl, imm, h, rfl⟩)
  | printInt => exact .inr (.inl ⟨rfl, rfl⟩)
  | printChar => exact .inr (.inl ⟨rfl, rfl⟩)
  | exit => exact .inl ⟨nofun, rfl⟩
  | unknown => exact .inl ⟨nofun, rfl⟩

/-- What `a` answers from `s`, `a'` answers with the cursor moved from `c` by the same amount, and all else equal. -/
def SameUpToCursor (s : State) (c : Int) (a a' : Result) : Prop :=
  ∀ t, a = .next t → a' = .next { t with pc := c + (t.pc - s.pc) }

section SameUpToCursor
variable (s : State) (c : Int)

/-- Two next states that differ in the cursor alone, each `n` lines from where it started. -/
theorem sameUpToCursor_next {t t' : State} (n : Int) (ht : t.pc = s.pc + n) (ht' : t' = { t with pc := c + n }) :
    SameUpToCursor s c (.next t) (.next t') := by
  rintro _ ⟨⟩
  rw [ht', ht, add_sub_cancel_left]

/-- The write port does not see the cursor (R23). -/
theorem write_with_pc (d : Reg) (v : Word) :
    ({ s with pc := c } : State).write d v = { s.write d v with pc := c } := by
  unfold State.write
  split <;> rfl

theorem sameUpToCursor_writeNext (d : Reg) (v : Word) :
    SameUpToCursor s c (writeNext d v s) (writeNext d v { s with pc := c }) :=
  sameUpToCursor_next s c 1 (by simp) (by rw [write_with_pc]; rfl)

theorem sameUpToCursor_advance : SameUpToCursor s c (.next s.advance) (.next ({ s with pc := c } : State).advance) :=
  sameUpToCursor_next s c 1 rfl rfl

theorem sameUpToCursor_branchNext (b : Bool) (imm : Imm) :
    SameUpToCursor s c (branchNext b imm s) (branchNext b imm { s with pc := c }) := by
  cases b with
  | false => exact sameUpToCursor_advance s c
  | true => exact sameUpToCursor_next s c (lineDelta imm) rfl rfl

/-- The dispatcher moves to the next line or holds the cursor, as registers 2 and 4 say (R105, R140). -/
theorem sameUpToCursor_execSyscall :
    SameUpToCursor s c (execSyscall s) (execSyscall { s with pc := c }) := by
  have hread (r : Reg) : ({ s with pc := c } : State).read r = s.read r := rfl
  rw [execSyscall_eq s, execSyscall_eq { s with pc := c }, hread, hread]
  split_ifs
  · exact sameUpToCursor_next s c 0 (by simp) (by rw [add_zero]; rfl)
  · exact sameUpToCursor_next s c 1 rfl rfl
  · exact sameUpToCursor_next s c 1 rfl rfl
  · exact sameUpToCursor_next s c 0 (by simp) (by rw [add_zero]; rfl)

theorem sameUpToCursor_execMul (d rs rt : Reg) :
    SameUpToCursor s c (execMul d rs rt s) (execMul d rs rt { s with pc := c }) := by
  unfold execMul
  split_ifs
  · exact sameUpToCursor_writeNext s c d _
  · exact sameUpToCursor_advance s c

/-- No instruction reads the cursor into anything but the cursor (R110). -/
theorem exec_sameUpToCursor (i : Instr) : SameUpToCursor s c (exec i s) (exec i { s with pc := c }) := by
  cases i with
  | add d _ _ => exact sameUpToCursor_writeNext s c d _
  | sub d _ _ => exact sameUpToCursor_writeNext s c d _
  | and d _ _ => exact sameUpToCursor_writeNext s c d _
  | or d _ _ => exact sameUpToCursor_writeNext s c d _
  | slt d _ _ => exact sameUpToCursor_writeNext s c d _
  | syscall => exact sameUpToCursor_execSyscall s c
  | syscallAlias w =>
    by_cases h : w = 0x0000000C#32
    · subst h
      exact sameUpToCursor_execSyscall s c
    · rw [exec, exec, execSyscallAlias_eq h, execSyscallAlias_eq h]
      exact sameUpToCursor_advance s c
  | beq _ _ imm => exact sameUpToCursor_branchNext s c _ imm
  | bne _ _ imm => exact sameUpToCursor_branchNext s c _ imm
  | addi t _ _ => exact sameUpToCursor_writeNext s c t _
  | slti t _ _ => exact sameUpToCursor_writeNext s c t _
  | andi t _ _ => exact sameUpToCursor_writeNext s c t _
  | ori t _ _ => exact sameUpToCursor_writeNext s c t _
  | lui t _ => exact sameUpToCursor_writeNext s c t _
  | mul d rs rt => exact sameUpToCursor_execMul s c d rs rt
end SameUpToCursor

/-- Settles O22: an ending before any instruction holds the cursor, an instruction moves it by its effect, and
`exec_sameUpToCursor` says that nothing else sees it. -/
theorem cursorChangesOnlyThreeWays : Obligations.CursorChangesOnlyThreeWays := by
  unfold Obligations.CursorChangesOnlyThreeWays
  refine ⟨fun s t h => ?_, reset_pc, fun i s c => exec_sameUpToCursor s c i⟩
  have hr := running_of_step h
  rcases step_next_cases h with ⟨-, rfl⟩ | ⟨w, -, -, rfl⟩ | ⟨w, i, hf, hd, he⟩
  · exact .inl ⟨nofun, rfl⟩
  · exact .inl ⟨nofun, rfl⟩
  · rcases (effect_of_exec he).cursor_cases with hheld | ⟨hst, hpc⟩ | ⟨hst, imm, hb, hpc⟩
    · exact .inl hheld
    · exact .inr (.inl ⟨hst.trans hr, hpc⟩)
    · exact .inr (.inr ⟨hst.trans hr, w, i, imm, hf, hd, hb, hpc⟩)

end Sys2Proof.Machine
end

section
/-! PROOF. The base-group ALU instructions (41_base_alu.md). -/

namespace Sys2Proof.Machine

/-! ## What the statement about one instruction is made of: its row and its register write -/

/-- A row of the opcode table is its instruction's alone: the match puts a word in the row, whose answer is the
decoder's, and the name that the decoded instruction shows leads back to the match (R76, R78). -/
theorem rowMatch_iff_decode {w mask key : Word} {i : Instr} (hrow : w &&& mask = key → DecodesAs w (.op i))
    (hmask : mnemonicMask i.mnemonic = mask) (hkey : mnemonicMatch i.mnemonic = key) :
    w &&& mask = key ↔ decode w = .op i := by
  constructor
  · intro h
    exact (hrow h).decode_eq
  · intro h
    rw [← hmask, ← hkey]
    exact and_mnemonicMask_of_mnemonicOf (mnemonicOf_of_decode h)

/-- A meaning of the register-writing shape leaves the frame of that shape, whichever way its value is written. -/
theorem exec_onlyRegister {i : Instr} {s : State} {d : Reg} {v v' : Word} (hexec : exec i s = writeNext d v s)
    (hv : v = v') : ∃ t, exec i s = .next t ∧ OnlyRegister s t d v' := by
  rw [hexec, hv]
  exact writeNext_spec d v' s

/-! ## The obligations -/

/-- Settles O31: `add` writes R12's sum, which is the sum of bit vectors. -/
theorem addWritesTheSum : Obligations.AddWritesTheSum := by
  unfold Obligations.AddWritesTheSum
  exact ⟨fun w => rowMatch_iff_decode .add rfl rfl, fun d rs rt s => exec_onlyRegister rfl (addWord_eq _ _)⟩

/-- Settles O32: `sub` writes R12's difference, which is the difference of bit vectors. -/
theorem subWritesTheDifference : Obligations.SubWritesTheDifference := by
  unfold Obligations.SubWritesTheDifference
  exact ⟨fun w => rowMatch_iff_decode .sub rfl rfl, fun d rs rt s => exec_onlyRegister rfl (subWord_eq _ _)⟩

/-- Settles O33: `and` writes R12's bitwise and, which is the bit vector's by definition. -/
theorem andWritesTheConjunction : Obligations.AndWritesTheConjunction := by
  unfold Obligations.AndWritesTheConjunction
  exact ⟨fun w => rowMatch_iff_decode .and rfl rfl, fun d rs rt s => exec_onlyRegister rfl rfl⟩

/-- Settles O34: `or` writes R12's bitwise or, which is the bit vector's by definition. -/
theorem orWritesTheDisjunction : Obligations.OrWritesTheDisjunction := by
  unfold Obligations.OrWritesTheDisjunction
  exact ⟨fun w => rowMatch_iff_decode .or rfl rfl, fun d rs rt s => exec_onlyRegister rfl rfl⟩

/-- Settles O35: `slt` writes the word of the comparison of the two registers' signed values. -/
theorem sltWritesTheSignedComparison : Obligations.SltWritesTheSignedComparison := by
  unfold Obligations.SltWritesTheSignedComparison
  exact ⟨fun w => rowMatch_iff_decode .slt rfl rfl, fun d rs rt s => exec_onlyRegister rfl (setLess_eq _ _)⟩

end Sys2Proof.Machine
end

section
/-! PROOF. The syscall instruction, its aliases and the dispatcher (42_syscall.md). -/

namespace Sys2Proof.Machine

/-! ## The dispatch over the selector (R140) -/

/-- Settles O36: the decoder's row, and for each of the dispatcher's four answers the frame of the operations it is
made of. -/
theorem syscallDispatchesOnTheSelector : Obligations.SyscallDispatchesOnTheSelector := by
  unfold Obligations.SyscallDispatchesOnTheSelector
  refine ⟨fun w => ⟨eq_syscallWord_of_decode, fun h => (DecodesAs.syscall h).decode_eq⟩, fun s => ?_⟩
  rcases execSyscall_cases s with ⟨hexit, he⟩ | ⟨hint, he⟩ | ⟨hchar, he⟩ | ⟨⟨h1, h10, h11⟩, he⟩
  · exact ⟨_, he, by simp [hexit, OnlySyscall]⟩
  · exact ⟨_, he, by simp [hint, OnlySyscall]⟩
  · exact ⟨_, he, by simp [hchar, OnlySyscall]⟩
  · exact ⟨_, he, by simp [h1, h10, h11, OnlySyscall]⟩

/-! ## The selectors, exactly (R145, R147) -/

/-- The unknown-syscall event is appended only for a selector other than 1, 10 and 11 (R145). -/
theorem selector_notMem_of_unknownSyscall {s t : State} {v : Word} (he : exec .syscall s = .next t)
    (hout : t.out = s.out ++ [.unknownSyscall v]) : s.read 2#5 ∉ [1#32, 10#32, 11#32] := by
  rcases (effect_of_exec he).out_cases with hsame | ⟨-, ⟨-, hint⟩ | ⟨-, hchar⟩ | ⟨hunknown, -⟩⟩
  · simp [hsame] at hout
  · simp [hint] at hout
  · simp [hchar] at hout
  · exact hunknown

/-- The dispatcher goes on to the next line exactly for the selectors 1 and 11 (R147). -/
theorem exec_syscall_pc_succ_iff (s : State) :
    (∃ t, exec .syscall s = .next t ∧ t.pc = s.pc + 1) ↔ s.read 2#5 = 1#32 ∨ s.read 2#5 = 11#32 := by
  rcases execSyscall_cases s with ⟨hexit, he⟩ | ⟨hint, he⟩ | ⟨hchar, he⟩ | ⟨⟨h1, -, h11⟩, he⟩
  · simp [exec, he, hexit]
  · simp [exec, he, hint]
  · simp [exec, he, hchar]
  · simp [exec, he, h1, h11]

/-- Settles O40: the dispatch of O36 has one halting answer with the event, and no other answer has it. -/
theorem unknownSyscallHalts : Obligations.UnknownSyscallHalts := by
  unfold Obligations.UnknownSyscallHalts
  refine ⟨fun s => ⟨fun hunknown => ?_, ?_⟩, exec_syscall_pc_succ_iff⟩
  · simp only [List.mem_cons, List.not_mem_nil, or_false, not_or] at hunknown
    obtain ⟨h1, h10, h11⟩ := hunknown
    simpa only [if_neg h1, if_neg h10, if_neg h11] using syscallDispatchesOnTheSelector.2 s
  · rintro ⟨t, he, hout, -⟩
    exact selector_notMem_of_unknownSyscall he hout

/-! ## The aliases and the whole class (R141, R146) -/

/-- Settles O41: an alias is the class's row without 0x0000000C, and its meaning is to advance. -/
theorem syscallAliasDoesNothing : Obligations.SyscallAliasDoesNothing := by
  unfold Obligations.SyscallAliasDoesNothing
  refine ⟨fun w => ⟨fun h => ?_, fun ⟨h, hne⟩ => (DecodesAs.syscallAlias h hne).decode_eq⟩,
    fun w s hne => ⟨_, execSyscallAlias_eq hne s, advance_spec s⟩, fun w => mnemonicOf_of_syscallClass⟩
  cases decode_eq_iff.1 h
  exact ⟨‹_›, ‹_›⟩

/-- An effect of an instruction without a target leaves the register file. -/
theorem Effect.regs_eq_of_no_target {s t : State} {i : Instr} (e : Effect s i t) (hi : writeTarget i = none) :
    t.regs = s.regs := by
  cases e with
  | write d v h =>
    rw [hi] at h
    cases h
  | _ => rfl

/-- Neither row of the syscall class has a target (R25). -/
theorem writeTarget_decodeSyscallClass (w : Word) : writeTarget (decodeSyscallClass w) = none := by
  rcases decodeSyscallClass_cases w with ⟨-, h⟩ | ⟨-, h⟩
  · rw [h, writeTarget]
  · rw [h, writeTarget]

/-- Neither row of the syscall class is a branch (R105). -/
theorem takenBranch_decodeSyscallClass (s : State) (w : Word) : takenBranch s (decodeSyscallClass w) = none := by
  rcases decodeSyscallClass_cases w with ⟨-, h⟩ | ⟨-, h⟩
  · rw [h, takenBranch]
  · rw [h, takenBranch]

/-- Settles O42: the step has an effect of an instruction that has no target and is no branch. -/
theorem syscallClassNeverWritesARegister : Obligations.SyscallClassNeverWritesARegister := by
  unfold Obligations.SyscallClassNeverWritesARegister
  intro s t w hr hf hclass hstep
  rw [step_of_decode hr hf (decode_of_syscallClass hclass)] at hstep
  have heffect := effect_of_exec hstep
  refine ⟨heffect.regs_eq_of_no_target (writeTarget_decodeSyscallClass w), ?_⟩
  rcases heffect.cursor_cases with ⟨hended, hpc⟩ | ⟨hstatus, hpc⟩ | ⟨-, imm, hbranch, -⟩
  · exact ⟨fun hrun => absurd hrun hended, fun _ => hpc⟩
  · exact ⟨fun _ => hpc, fun hended => absurd (hstatus.trans hr) hended⟩
  · rw [takenBranch_decodeSyscallClass] at hbranch
    cases hbranch

/-! ## Exit and the register dump (R142, R215) -/

/-- The dump's lines are a function of the register file. -/
theorem dumpEntries_eq_of_regs_eq {s t : State} (h : t.regs = s.regs) : dumpEntries t = dumpEntries s := by
  simp only [dumpEntries, State.read, h]

/-- A dump is presented after every halt, whatever the reason (R215). -/
theorem registerDump_of_halted {s : State} {r : HaltReason} (h : s.status = .halted r) :
    registerDump s = some ((dumpEntries s).map dumpLine) := by
  rw [registerDump, h]

/-- Settles O37: the first answer of O36's dispatch, whose frame keeps the registers that the dump shows. -/
theorem syscallTenExits : Obligations.SyscallTenExits := by
  unfold Obligations.SyscallTenExits
  intro s h
  obtain ⟨t, he, hframe⟩ := syscallDispatchesOnTheSelector.2 s
  rw [if_pos h] at hframe
  have ⟨_, hstatus, _, hregs, _⟩ := hframe
  exact ⟨t, he, hframe, by rw [registerDump_of_halted hstatus, dumpEntries_eq_of_regs_eq hregs]⟩

/-! ## The console text (R143, R144) -/

/-- One more event makes the console text longer by that event's text (R216). -/
theorem consoleText_of_out_append {s t : State} {e : Event} (h : t.out = s.out ++ [e]) (cfg : Config) :
    consoleText cfg t = consoleText cfg s ++ e.text cfg := by
  simp [consoleText, h, String.join_append, String.join_cons]

/-- The signed value lies in 0 to 127 exactly when the unsigned one is at most 127: a word with bit 31 set is negative
in the one reading and large in the other. -/
theorem signed_mem_ascii_iff (v : Word) : 0 ≤ signed v ∧ signed v ≤ 127 ↔ v.toNat ≤ 127 := by
  rw [signed, BitVec.toInt_eq_toNat_cond]
  split_ifs <;> omega

/-- Settles O38: the second answer of O36's dispatch, and the text of `PrintInt`. -/
theorem syscallOnePrintsTheInteger : Obligations.SyscallOnePrintsTheInteger := by
  unfold Obligations.SyscallOnePrintsTheInteger
  intro s h
  obtain ⟨t, he, hframe⟩ := syscallDispatchesOnTheSelector.2 s
  rw [if_neg (by simp [h]), if_pos h] at hframe
  exact ⟨t, he, hframe, consoleText_of_out_append hframe.1⟩

/-- Settles O39: the third answer of O36's dispatch, and the text of `PrintChar` read unsigned. -/
theorem syscallElevenPrintsTheCharacter : Obligations.SyscallElevenPrintsTheCharacter := by
  unfold Obligations.SyscallElevenPrintsTheCharacter
  intro s h
  obtain ⟨t, he, hframe⟩ := syscallDispatchesOnTheSelector.2 s
  rw [if_neg (by simp [h]), if_neg (by simp [h]), if_pos h] at hframe
  refine ⟨t, he, hframe, fun cfg => ?_⟩
  rw [consoleText_of_out_append hframe.1, Event.text, unsigned]
  simp only [signed_mem_ascii_iff]

end Sys2Proof.Machine
end

section
/-! PROOF. The branch instructions (43_branch.md). -/

namespace Sys2Proof.Machine

/-! ## What a branch does (R105, R160, R161) -/

/-- A meaning of the branch shape leaves the frame of that shape, whichever way its condition is written. -/
theorem exec_onlyCursor {i : Instr} {s : State} {c : Bool} {imm : Imm} {p : Prop} [Decidable p]
    (hexec : exec i s = branchNext c imm s) (hc : c = true ↔ p) :
    ∃ t, exec i s = .next t ∧ OnlyCursor s t (if p then s.pc + signed (sext16 imm) else s.pc + 1) := by
  rw [hexec, ← if_congr hc rfl rfl]
  exact branchNext_spec c imm s

/-- Settles O43: the row of `beq`, and the branch shape under the equality of the two words. -/
theorem beqBranchesOnEquality : Obligations.BeqBranchesOnEquality := by
  unfold Obligations.BeqBranchesOnEquality
  exact ⟨fun w => rowMatch_iff_decode .beq rfl rfl, fun rs rt imm s => exec_onlyCursor rfl beq_iff_eq⟩

/-- Settles O44: the row of `bne`, and the branch shape under the inequality of the two words. -/
theorem bneBranchesOnInequality : Obligations.BneBranchesOnInequality := by
  unfold Obligations.BneBranchesOnInequality
  exact ⟨fun w => rowMatch_iff_decode .bne rfl rfl, fun rs rt imm s => exec_onlyCursor rfl bne_iff_ne⟩

/-- The two instructions that R105 case 1 is about. -/
inductive IsBranch : Instr → Prop where
  | beq (rs rt : Reg) (imm : Imm) : IsBranch (.beq rs rt imm)
  | bne (rs rt : Reg) (imm : Imm) : IsBranch (.bne rs rt imm)

/-- No other instruction is ever a taken branch. -/
theorem isBranch_of_takenBranch {i : Instr} {s : State} {imm : Imm} (h : takenBranch s i = some imm) : IsBranch i := by
  cases i with
  | beq rs rt imm => exact .beq rs rt imm
  | bne rs rt imm => exact .bne rs rt imm
  | _ => cases h

/-- A branch moves the cursor by the offset that `takenBranch` names, or to the next line when it names none. -/
theorem IsBranch.exec_eq {i : Instr} (hi : IsBranch i) (s : State) :
    exec i s = .next ((takenBranch s i).elim s.advance s.branchBy) := by
  cases hi with
  | beq rs rt imm =>
    by_cases h : s.read rs = s.read rt
    · simp [exec, execBeq, branchNext, condEqual, takenBranch, h]
    · simp [exec, execBeq, branchNext, condEqual, takenBranch, h]
  | bne rs rt imm =>
    by_cases h : s.read rs = s.read rt
    · simp [exec, execBne, branchNext, condNotEqual, takenBranch, h]
    · simp [exec, execBne, branchNext, condNotEqual, takenBranch, h]

/-- The step on a fetched branch that is taken. -/
theorem step_of_takenBranch {s : State} {w : Word} {i : Instr} {imm : Imm} (hr : s.status = .running)
    (hf : s.prog.fetch s.pc = some w) (hd : decode w = .op i) (h : takenBranch s i = some imm) :
    step s = .next (s.branchBy imm) := by
  rw [step_of_decode hr hf hd, (isBranch_of_takenBranch h).exec_eq, h, Option.elim_some]

/-- The step on a fetched branch that is not taken. -/
theorem step_of_branch_notTaken {s : State} {w : Word} {i : Instr} (hr : s.status = .running)
    (hf : s.prog.fetch s.pc = some w) (hd : decode w = .op i) (hi : IsBranch i) (h : takenBranch s i = none) :
    step s = .next s.advance := by
  rw [step_of_decode hr hf hd, hi.exec_eq, h, Option.elim_none]

/-- Branching moves the cursor alone. -/
theorem branchBy_spec (s : State) (imm : Imm) : OnlyCursor s (s.branchBy imm) (s.pc + lineDelta imm) := by
  simp [OnlyCursor]

/-! ## The offset in lines (R162) -/

/-- Every offset from -32768 to 32767 is the signed value of its immediate. -/
theorem lineDelta_ofInt {k : Int} (hlo : -32768 ≤ k) (hhi : k ≤ 32767) : lineDelta (BitVec.ofInt 16 k) = k := by
  rw [lineDelta, signed_sext16]
  exact BitVec.toInt_ofInt_eq_self (by decide) (by simpa using hlo) (by simpa using Int.lt_add_one_of_le hhi)

/-- Settles O45: the bounds of the signed immediate, and the step on a branch in its two cases. -/
theorem takenBranchMovesByTheOffset : Obligations.TakenBranchMovesByTheOffset := by
  unfold Obligations.TakenBranchMovesByTheOffset
  refine ⟨lineDelta_bounds, fun k => lineDelta_ofInt, fun s w i imm hr hf hd h => ?_,
    fun s w rs rt imm hr hf hbranch hnone => ?_⟩
  · exact ⟨_, step_of_takenBranch hr hf hd h, branchBy_spec s imm⟩
  · rcases hbranch with hd | hd
    · exact ⟨_, step_of_branch_notTaken hr hf hd (.beq rs rt imm) (hnone _ hd), advance_spec s⟩
    · exact ⟨_, step_of_branch_notTaken hr hf hd (.bne rs rt imm) (hnone _ hd), advance_spec s⟩

/-! ## A target outside the program (R163) -/

/-- After a branch to a line outside the program the next step ends the run there (R101). -/
theorem step_branchBy_of_outside {s : State} {imm : Imm} (hr : s.status = .running)
    (hout : s.prog.inRange (s.pc + lineDelta imm) = false) :
    step (s.branchBy imm) = .next { s.branchBy imm with status := .halted .endOfProgram } :=
  cursorOutsideTheProgramHalts (s.branchBy imm) hr ((s.prog.inRange_eq_false_iff _).1 hout)

/-- The word of `beq $0, $0, imm` is a branch that is always taken. -/
theorem takenBranch_beq_zero (s : State) (imm : Imm) : takenBranch s (.beq 0#5 0#5 imm) = some imm := by
  rw [takenBranch, if_pos rfl]

/-- Settles O46: the taken branch, then the range check; 0x1000FFFF at line 0 is the case of target -1. -/
theorem branchOutOfTheProgramHaltsNext : Obligations.BranchOutOfTheProgramHaltsNext := by
  unfold Obligations.BranchOutOfTheProgramHaltsNext
  refine ⟨fun s w i imm hr hf hd h hout => ?_, fun s hr hpc hf => ?_⟩
  · exact ⟨_, step_of_takenBranch hr hf hd h, branchBy_spec s imm, step_branchBy_of_outside hr hout⟩
  · have htarget : s.pc + lineDelta 0xFFFF#16 = -1 := by
      rw [hpc]
      decide
    have hout : s.prog.inRange (s.pc + lineDelta 0xFFFF#16) = false := by
      rw [htarget]
      exact (s.prog.inRange_eq_false_iff (-1)).2 (.inl (by decide))
    have hdecode : decode 0x1000FFFF#32 = .op (.beq 0#5 0#5 0xFFFF#16) := by decide
    have htaken := step_of_takenBranch hr (hpc.symm ▸ hf) hdecode (takenBranch_beq_zero s _)
    rw [run_succ_of_step htaken, run_succ_of_step (step_branchBy_of_outside hr hout), run_zero, State.branchBy,
      htarget]

/-! ## A branch to itself (R164) -/

/-- A state that is its own next state is the end of every run from it. -/
theorem run_of_step_self {s : State} (h : step s = .next s) (k : Nat) : Sys2Proof.core.run k s = .next s := by
  induction k with
  | zero => exact run_zero s
  | succ k ih => rw [run_succ_of_step h, ih]

/-- Offset 0 leaves the cursor, and so the whole state. -/
theorem branchBy_zero (s : State) : s.branchBy 0#16 = s := by
  have hzero : lineDelta 0#16 = 0 := by decide
  rw [State.branchBy, hzero, add_zero]

/-- A branch taken with offset 0 is its own next state, so it runs forever. -/
theorem run_of_selfBranch {s : State} {w : Word} {i : Instr} (hr : s.status = .running)
    (hf : s.prog.fetch s.pc = some w) (hd : decode w = .op i) (h : takenBranch s i = some 0#16) (k : Nat) :
    Sys2Proof.core.run k s = .next s := by
  have hstep := step_of_takenBranch hr hf hd h
  rw [branchBy_zero] at hstep
  exact run_of_step_self hstep k

/-- Settles O47: `run_of_selfBranch`, and 0x10000000 is such a branch whatever the registers hold. -/
theorem branchToItselfNeverEnds : Obligations.BranchToItselfNeverEnds := by
  unfold Obligations.BranchToItselfNeverEnds
  have hdecode : decode 0x10000000#32 = .op (.beq 0#5 0#5 0#16) := by decide
  exact ⟨fun s w i => run_of_selfBranch, fun s hr hf => run_of_selfBranch hr hf hdecode (takenBranch_beq_zero s _)⟩

end Sys2Proof.Machine
end

section
/-! PROOF. The immediate instructions (44_immediate.md). -/

namespace Sys2Proof.Machine

/-! ## A word as its two halves (R11, R80) -/

/-- A word is its upper half above its lower half. -/
theorem halves_append (w : Word) : (w.extractLsb' 16 16 ++ w.extractLsb' 0 16 : BitVec 32) = w :=
  BitVec.extractLsb'_append_extractLsb' (w := 16)

/-- The raw immediate stands below sixteen zeros (R11). -/
theorem zext16_eq_append (imm : Imm) : zext16 imm = (0#16 ++ imm : BitVec 32) :=
  BitVec.setWidth_eq_append (by decide)

/-- A shift by 16 puts the lower half above sixteen zeros, and the upper half is dropped. -/
theorem shlWord_sixteen (a : Word) : shlWord a 16 = (a.extractLsb' 0 16 ++ 0#16 : BitVec 32) :=
  BitVec.shiftLeft_eq_concat_of_lt (by decide)

/-- The raw immediate masks the lower half and clears the upper one. -/
theorem andWord_zext16 (a : Word) (imm : Imm) :
    andWord a (zext16 imm) = (0#16 ++ (a.extractLsb' 0 16 &&& imm) : BitVec 32) :=
  calc andWord a (zext16 imm)
      = (a.extractLsb' 16 16 ++ a.extractLsb' 0 16 : BitVec 32) &&& (0#16 ++ imm) := by
        rw [halves_append, zext16_eq_append, andWord]
    _ = (a.extractLsb' 16 16 &&& 0#16) ++ (a.extractLsb' 0 16 &&& imm) := BitVec.and_append
    _ = 0#16 ++ (a.extractLsb' 0 16 &&& imm) := by rw [BitVec.and_zero]

/-- The raw immediate sets bits of the lower half and keeps the upper one. -/
theorem orWord_append_zext16 (hi lo imm : Imm) :
    orWord (hi ++ lo : BitVec 32) (zext16 imm) = (hi ++ (lo ||| imm) : BitVec 32) := by
  rw [zext16_eq_append, orWord, BitVec.or_append, BitVec.or_zero]

/-- The sign extension in `lui` has no effect: the shift drops the bits it fills in (R174). -/
theorem shlWord_sext16 (imm : Imm) : shlWord (sext16 imm) 16 = (imm ++ 0#16 : BitVec 32) := by
  obtain ⟨-, -, hlow, -⟩ := signAndZeroExtension imm
  rw [shlWord_sixteen, hlow]

theorem shlWord_zext16 (imm : Imm) : shlWord (zext16 imm) 16 = (imm ++ 0#16 : BitVec 32) := by
  obtain ⟨-, -, -, -, hlow, -⟩ := signAndZeroExtension imm
  rw [shlWord_sixteen, hlow]

/-! ## The obligations about one instruction -/

/-- Settles O48: `addi` writes R12's sum of the register and the sign-extended immediate. -/
theorem addiWritesTheSum : Obligations.AddiWritesTheSum := by
  unfold Obligations.AddiWritesTheSum
  exact ⟨fun w => rowMatch_iff_decode .addi rfl rfl, fun rt rs imm s => exec_onlyRegister rfl (addWord_eq _ _)⟩

/-- Settles O49: `slti` compares signed values, and sign extension keeps the immediate's. -/
theorem sltiComparesWithTheSignExtension : Obligations.SltiComparesWithTheSignExtension := by
  unfold Obligations.SltiComparesWithTheSignExtension
  refine ⟨fun w => rowMatch_iff_decode .slti rfl rfl, fun rt rs imm s => exec_onlyRegister rfl ?_⟩
  have hvalue : (sext16 imm).toInt = imm.toInt := signed_sext16 imm
  rw [setLess_eq, hvalue]

/-- Settles O50: `andi` masks with the zero-extended immediate, half by half. -/
theorem andiMasksWithTheRawImmediate : Obligations.AndiMasksWithTheRawImmediate := by
  unfold Obligations.AndiMasksWithTheRawImmediate
  exact ⟨fun w => rowMatch_iff_decode .andi rfl rfl, fun rt rs imm s => exec_onlyRegister rfl (andWord_zext16 _ _)⟩

/-- Settles O51: `ori` sets bits of the register's lower half, with the register written as its two halves. -/
theorem oriSetsTheRawImmediate : Obligations.OriSetsTheRawImmediate := by
  unfold Obligations.OriSetsTheRawImmediate
  refine ⟨fun w => rowMatch_iff_decode .ori rfl rfl, fun rt rs imm s => exec_onlyRegister rfl ?_⟩
  rw [← orWord_append_zext16, halves_append]

/-- Settles O52: `lui` writes R12's shift, which is the bit vector's by definition; its row leaves the field `s`
open. -/
theorem luiLoadsTheUpperHalf : Obligations.LuiLoadsTheUpperHalf := by
  unfold Obligations.LuiLoadsTheUpperHalf
  exact ⟨fun w => rowMatch_iff_decode .lui rfl rfl, fun rt imm s => exec_onlyRegister rfl rfl⟩

/-! ## `lui` then `ori` (R173, R174) -/

/-- The register written holds the value, unless it is register 0. -/
theorem OnlyRegister.read_self {s t : State} {d : Reg} {v : Word} (h : OnlyRegister s t d v) (hd : d ≠ 0#5) :
    t.read d = v := by
  rw [h.1, if_pos ⟨rfl, hd⟩]

/-- Every other register reads as before. -/
theorem OnlyRegister.read_of_ne {s t : State} {d r : Reg} {v : Word} (h : OnlyRegister s t d v) (hr : r ≠ d) :
    t.read r = s.read r := by
  rw [h.1, if_neg fun hrd => hr hrd.1]

/-- Settles O53: `lui` puts the upper half of the constant above sixteen zeros, `ori` fills them with the lower half,
and the frames of the two steps compose. -/
theorem luiThenOriBuildsAnyConstant : Obligations.LuiThenOriBuildsAnyConstant := by
  unfold Obligations.LuiThenOriBuildsAnyConstant
  refine ⟨fun imm => ⟨(shlWord_sext16 imm).trans (shlWord_zext16 imm).symm, shlWord_sext16 imm⟩, fun rt c s hrt => ?_⟩
  obtain ⟨t, hlui, ht⟩ : ∃ t, exec (.lui rt (c.extractLsb' 16 16)) s = .next t ∧
      OnlyRegister s t rt (c.extractLsb' 16 16 ++ 0#16 : BitVec 32) := exec_onlyRegister rfl (shlWord_sext16 _)
  have hbuilt : orWord (t.read rt) (zext16 (c.extractLsb' 0 16)) = c := by
    rw [ht.read_self hrt, orWord_append_zext16, BitVec.zero_or, halves_append]
  obtain ⟨u, hori, hu⟩ : ∃ u, exec (.ori rt rt (c.extractLsb' 0 16)) t = .next u ∧ OnlyRegister t u rt c :=
    exec_onlyRegister rfl hbuilt
  have ⟨_, _, htpc, htstatus, htout, htprog⟩ := ht
  have ⟨_, _, hupc, hustatus, huout, huprog⟩ := hu
  refine ⟨t, u, hlui, hori, hu.read_self hrt, fun r hr => (hu.read_of_ne hr).trans (ht.read_of_ne hr), ?_,
    hustatus.trans htstatus, huout.trans htout, huprog.trans htprog⟩
  rw [hupc, htpc, add_assoc, one_add_one_eq_two]

end Sys2Proof.Machine
end

section
/-! PROOF. The multiply instruction (45_multiply.md). -/

namespace Sys2Proof.Machine

/-! ## Signed and unsigned operands (R12, R190) -/

/-- The two readings of a word differ by a multiple of 2^32 (R10). -/
theorem signed_modEq_unsigned (v : Word) : signed v ≡ (unsigned v : Int) [ZMOD 2 ^ 32] := by
  have hbits : (unsigned v : Int) = signed v % 2 ^ 32 := by rw [← unsigned_bits32, bits32_signed]
  rw [hbits]
  exact (Int.mod_modEq _ _).symm

/-- Settles O7: R12 gives each result from the signed values, and sum, difference and product respect the congruence
of the two readings. -/
theorem signednessDoesNotMatterModulo32Bits : Obligations.SignednessDoesNotMatterModulo32Bits := by
  unfold Obligations.SignednessDoesNotMatterModulo32Bits
  intro a b
  have ha := signed_modEq_unsigned a
  have hb := signed_modEq_unsigned b
  obtain ⟨hadd, hsub, hmul, -⟩ := operatorsOnPatterns a b
  refine ⟨?_, ?_, hsub.trans (ha.sub hb)⟩
  · exact_mod_cast hmul.trans (ha.mul hb)
  · exact_mod_cast hadd.trans (ha.add hb)

/-! ## The guard on the index `t` (R190) -/

/-- The guard passes: `mul` is of the register-writing shape. -/
theorem execMul_of_ne_zero {rt : Reg} (h : rt ≠ 0#5) (d rs : Reg) (s : State) :
    execMul d rs rt s = writeNext d (mulWord (s.read rs) (s.read rt)) s :=
  if_pos h

/-- The guard fails: whatever `d` is, `mul` only advances. -/
theorem execMul_zero (d rs : Reg) (s : State) : execMul d rs 0#5 s = .next s.advance := rfl

/-- Settles O54: the row of `mul`, and the two sides of the guard; the value written is R12's product by
definition. -/
theorem mulWritesWhenTIsNotZero : Obligations.MulWritesWhenTIsNotZero := by
  unfold Obligations.MulWritesWhenTIsNotZero
  refine ⟨fun w => rowMatch_iff_decode .mul rfl rfl, fun d rs rt s ht => ?_, fun d rs s => ?_⟩
  · exact exec_onlyRegister (execMul_of_ne_zero ht d rs s) rfl
  · exact ⟨_, execMul_zero d rs s, advance_spec s⟩

/-! ## The low eleven bits (R191) -/

/-- The bitwise and distributes over the exclusive or. -/
theorem xor_and_distrib (a b m : Word) : (a ^^^ b) &&& m = (a &&& m) ^^^ (b &&& m) := by
  apply BitVec.eq_of_getLsbD_eq
  intro k _
  simp only [BitVec.getLsbD_and, BitVec.getLsbD_xor, Bool.and_xor_distrib_right]

/-- A change confined to the low eleven bits leaves the bits above them. -/
theorem xor_lowEleven_and (w x : Word) : (w ^^^ (x &&& 0x7FF#32)) &&& 0xFFFFF800#32 = w &&& 0xFFFFF800#32 := by
  have hlow : x &&& 0x7FF#32 &&& 0xFFFFF800#32 = 0#32 := by
    rw [BitVec.and_assoc]
    exact BitVec.and_zero
  rw [xor_and_distrib, hlow, BitVec.xor_zero]

/-- No opcode bit is among the low eleven. -/
theorem opcodeField_xor_lowEleven (w x : Word) : opcodeField (w ^^^ (x &&& 0x7FF#32)) = opcodeField w := by
  rw [← opcodeField_and _ 0xFFFFF800#32 rfl, xor_lowEleven_and, opcodeField_and _ _ rfl]

/-- Settles O55: the opcode field alone decides the row of `mul`, and the row's answer is the one without the low
eleven bits. -/
theorem everyMulOpcodeWordIsMul : Obligations.EveryMulOpcodeWordIsMul := by
  unfold Obligations.EveryMulOpcodeWordIsMul
  refine ⟨fun w h => (DecodesAs.mul h).decode_eq, fun w x h => ?_, by decide, by decide⟩
  rw [← decode_and_of_mul h, ← decode_and_of_mul ((opcodeField_xor_lowEleven w x).trans h), xor_lowEleven_and]

end Sys2Proof.Machine
end

section
/-! PROOF. Exceptions: the four endings of a run, the decode fault, and the register dump (60_exceptions.md). -/

namespace Sys2Proof.Machine

/-! ## The endings (R200, R205, R206) -/

/-- An instruction leaves the status, or ends the run as syscall 10 or as an unknown syscall (R203). -/
theorem Effect.status_cases {s t : State} {i : Instr} (e : Effect s i t) :
    t.status = s.status ∨ t = s.halt .exit ∨
    ∃ v, t = (s.emit (.unknownSyscall v)).halt (.unknownSyscall v) := by
  cases e with
  | write => exact .inl (by simp)
  | advance => exact .inl rfl
  | branch => exact .inl rfl
  | printInt => exact .inl rfl
  | printChar => exact .inl rfl
  | exit => exact .inr (.inl rfl)
  | unknown => exact .inr (.inr ⟨_, rfl⟩)

/-- A step that ends the run is one of the four endings: End, the decode fault, Exit, UnknownSyscall (R200). -/
theorem step_ending_cases {s t : State} (h : step s = .next t) (hended : t.status ≠ .running) :
    t = s.halt .endOfProgram ∨
    (∃ w, s.prog.fetch s.pc = some w ∧ decodes w = false ∧ t = s.raiseDecodeFault w) ∨
    t = s.halt .exit ∨
    ∃ v, t = (s.emit (.unknownSyscall v)).halt (.unknownSyscall v) := by
  rcases step_next_cases h with ⟨-, hend⟩ | hfault | ⟨w, i, -, -, he⟩
  · exact .inl hend
  · exact .inr (.inl hfault)
  · rcases (effect_of_exec he).status_cases with hstatus | hhalt
    · exact absurd (hstatus.trans (running_of_step h)) hended
    · exact .inr (.inr hhalt)

/-- Settles O25: each of the four endings changes the status, and only the unknown syscall's one the log as well. -/
theorem everyEndingIsPrecise : Obligations.EveryEndingIsPrecise := by
  unfold Obligations.EveryEndingIsPrecise
  intro s t h hended
  rcases step_ending_cases h hended with rfl | ⟨w, -, -, rfl⟩ | rfl | ⟨v, rfl⟩
  · exact ⟨rfl, rfl, rfl, .inl ⟨rfl, nofun⟩⟩
  · exact ⟨rfl, rfl, rfl, .inl ⟨rfl, nofun⟩⟩
  · exact ⟨rfl, rfl, rfl, .inl ⟨rfl, nofun⟩⟩
  · exact ⟨rfl, rfl, rfl, .inr ⟨v, rfl, rfl⟩⟩

/-! ## The decode fault (R201, R203) -/

/-- Of the four endings only the decode fault leaves `Faulted(w)`, and `w` is the fetched word (R201). -/
theorem eq_raiseDecodeFault_of_step {s t : State} {w : Word} (h : step s = .next t) (ht : t.status = .faulted w) :
    s.prog.fetch s.pc = some w ∧ decodes w = false ∧ t = s.raiseDecodeFault w := by
  rcases step_ending_cases h (by simp [ht]) with rfl | ⟨w', hf, hd, rfl⟩ | rfl | ⟨v, rfl⟩
  · cases ht
  · cases ht
    exact ⟨hf, hd, rfl⟩
  · cases ht
  · cases ht

/-- Settles O20: the fault comes from the fetched word alone, and it is a change of the status, in which there is no
dump and no step. -/
theorem decodeFaultIsExactAndPrecise : Obligations.DecodeFaultIsExactAndPrecise := by
  unfold Obligations.DecodeFaultIsExactAndPrecise
  intro s w hr
  refine ⟨⟨fun ⟨t, h, ht⟩ => ?_, fun ⟨hf, hd⟩ => ⟨_, step_of_undecodable hr hf hd, rfl⟩⟩, fun t h ht => ?_⟩
  · obtain ⟨hf, hd, -⟩ := eq_raiseDecodeFault_of_step h ht
    exact ⟨hf, hd⟩
  · obtain ⟨-, -, rfl⟩ := eq_raiseDecodeFault_of_step h ht
    exact ⟨rfl, rfl, fun t' => nofun⟩

theorem notFaulted_of_running {s : State} (hr : s.status = .running) : NotFaulted s := by
  intro w
  simp [hr]

/-- No effect of an instruction leaves the machine faulted (R203). -/
theorem Effect.notFaulted {s t : State} {i : Instr} (e : Effect s i t) (hs : NotFaulted s) : NotFaulted t := by
  rcases e.status_cases with hstatus | rfl | ⟨v, rfl⟩
  · intro w
    rw [hstatus]
    exact hs w
  · exact nofun
  · exact nofun

/-- Every instruction answers a next state, so none stops the machine with a fault (R203). -/
theorem exec_ne_fault (i : Instr) (s : State) (r : Fault) : exec i s ≠ .fault r := by
  obtain ⟨t, ht, -⟩ := exec_effect i s
  simp [ht]

/-- A decode fault needs a fetched word that does not decode, and every fetched word is one of the program's. -/
theorem step_notFaulted {s t : State} (hp : ProgramDecodes s.prog) (h : step s = .next t) : NotFaulted t := by
  intro w ht
  obtain ⟨hf, hd, -⟩ := eq_raiseDecodeFault_of_step h ht
  have hdecodes := hp w (Memory.mem_of_fetch hf)
  simp [hd] at hdecodes

/-- No step writes the program, so one that decodes stays one that decodes (R53). -/
theorem step_keeps_programDecodes {s t : State} (hp : ProgramDecodes s.prog) (h : step s = .next t) :
    ProgramDecodes t.prog := by
  rw [step_prog_eq h]
  exact hp

/-- Settles O30: an instruction by its effects; a step because what it fetches decodes; a run by induction, from a
boot that validated the listing. -/
theorem decodedProgramsNeverFault : Obligations.DecodedProgramsNeverFault := by
  unfold Obligations.DecodedProgramsNeverFault
  refine ⟨fun i s t hs he => (effect_of_exec he).notFaulted hs, exec_ne_fault,
    fun s t hp _ h => ⟨step_notFaulted hp h, step_keeps_programDecodes hp h⟩, ?_⟩
  rintro cfg listing k s hvalidate ⟨s₀, hboot, hrun⟩
  obtain ⟨rfl, -, hdecodes⟩ := boot_next hboot
  have hend : NotFaulted s ∧ ProgramDecodes s.prog :=
    run_induction (P := fun u => NotFaulted u ∧ ProgramDecodes u.prog)
      (fun _ _ ⟨_, hp⟩ h => ⟨step_notFaulted hp h, step_keeps_programDecodes hp h⟩) k _ s
      ⟨notFaulted_of_running rfl, hdecodes hvalidate⟩ hrun
  exact hend.1

/-! ## The register dump (R215) -/

/-- An entry is the index of a register with its signed value, when that is not 0. -/
theorem mem_dumpEntries_iff (s : State) (k : Nat) (v : Int) :
    (k, v) ∈ dumpEntries s ↔ k < 32 ∧ v ≠ 0 ∧ v = (s.read (BitVec.ofNat 5 k)).toInt := by
  simp only [dumpEntries, signed, List.mem_filter, List.mem_map, List.mem_range, Prod.mk.injEq, decide_eq_true_iff]
  constructor
  · rintro ⟨⟨_, hk, rfl, rfl⟩, hv⟩
    exact ⟨hk, hv, rfl⟩
  · rintro ⟨hk, hv, rfl⟩
    exact ⟨⟨k, hk, rfl, rfl⟩, hv⟩

/-- Register 0 reads 0 (R22), so it has no entry. -/
theorem zero_notMem_dumpEntries (s : State) (v : Int) : (0, v) ∉ dumpEntries s := by
  rw [mem_dumpEntries_iff]
  rintro ⟨-, hv, hread⟩
  exact hv (hread.trans (by simp))

/-- The entries are taken from the indices 0 to 31 in their order. -/
theorem dumpEntries_pairwise_lt (s : State) : (dumpEntries s).Pairwise fun a b => a.1 < b.1 := by
  apply List.Pairwise.filter
  rw [List.pairwise_map]
  exact List.pairwise_lt_range

/-- Settles O56: what an entry is, register 0, the order, and the lines that a halted machine shows. -/
theorem dumpListsTheNonZeroRegisters : Obligations.DumpListsTheNonZeroRegisters := by
  unfold Obligations.DumpListsTheNonZeroRegisters
  exact ⟨mem_dumpEntries_iff, zero_notMem_dumpEntries, dumpEntries_pairwise_lt, fun s r => registerDump_of_halted⟩

end Sys2Proof.Machine
end

section
/-! PROOF. The reset event and the two settings of PRELOAD_VALIDATE (70_reset_and_hazards.md). -/

namespace Sys2Proof.Machine

/-! ## The reset event (R231) -/

/-- Every register reads 0 after the reset event, whatever it held before. -/
@[simp] theorem resetEvent_read (s : State) (r : Reg) : s.resetEvent.read r = 0#32 := reset_read r

/-- The program is the only part of a state that its reset depends on. -/
theorem resetEvent_eq_of_prog_eq {s s' : State} (h : s'.prog = s.prog) : s'.resetEvent = s.resetEvent := by
  rw [State.resetEvent, State.resetEvent, h]

/-- Settles O2: the reset event gives the values of O1, and takes nothing but the program from the state. -/
theorem resetForgetsEverythingBefore : Obligations.ResetForgetsEverythingBefore := by
  unfold Obligations.ResetForgetsEverythingBefore
  intro s
  exact ⟨resetLeavesTheSpecifiedValues.1, resetEvent_read s, resetEvent_pc s, resetEvent_status s, resetEvent_out s,
    resetEvent_prog s, fun s' => resetEvent_eq_of_prog_eq⟩

/-! ## PRELOAD_VALIDATE (R234) -/

/-- Under PRELOAD_VALIDATE a listing that fits but holds an illegal word is refused, with one of its illegal words. -/
theorem boot_of_not_programDecodes {cfg : Config} {listing : Memory} (hvalidate : cfg.preloadValidate = true)
    (hwf : listing.wf cfg = true) (hillegal : ¬ ProgramDecodes listing) :
    ∃ w ∈ listing, decodes w = false ∧ boot cfg listing = .refused (.undecodableWord w) := by
  cases hfirst : firstUndecodable listing with
  | none => exact absurd ((firstUndecodable_eq_none_iff listing).1 hfirst) hillegal
  | some w =>
    obtain ⟨hmem, hdecodes⟩ := firstUndecodable_some hfirst
    refine ⟨w, hmem, hdecodes, ?_⟩
    rw [boot, if_neg (not_not_intro hwf), if_pos hvalidate, hfirst]

/-- Of the configuration only the capacity matters for a listing that decodes. -/
theorem boot_eq_of_capacity_eq {cfg cfg' : Config} {listing : Memory} (hcap : cfg.capacity = cfg'.capacity)
    (hdecodes : ProgramDecodes listing) : boot cfg listing = boot cfg' listing := by
  rcases Nat.lt_or_ge cfg.capacity listing.length with hover | hfits
  · rw [boot_of_overCapacity hover, boot_of_overCapacity (hcap ▸ hover)]
  · rw [boot_of_wf ((listing.wf_iff cfg).2 hfits) fun _ => hdecodes,
      boot_of_wf ((listing.wf_iff cfg').2 (hcap ▸ hfits)) fun _ => hdecodes]

/-- Settles O4: without validation a listing that fits starts, and a fault names the fetched word; with it an illegal
word is found before reset; a listing that decodes passes either way. -/
theorem preloadValidationGuardsTheRun : Obligations.PreloadValidationGuardsTheRun := by
  unfold Obligations.PreloadValidationGuardsTheRun
  refine ⟨fun cfg listing hoff hlen => ?_, fun s t w _ h ht => ?_, fun cfg listing hvalidate hlen => ?_,
    fun cfg cfg' listing => boot_eq_of_capacity_eq⟩
  · exact boot_of_wf ((listing.wf_iff cfg).2 hlen) fun hon => absurd hon (by simp [hoff])
  · obtain ⟨hfetch, hdecodes, -⟩ := eq_raiseDecodeFault_of_step h ht
    exact ⟨hfetch, hdecodes⟩
  · exact boot_of_not_programDecodes hvalidate ((listing.wf_iff cfg).2 hlen)

end Sys2Proof.Machine
end
